-- ==== Sys2Proof/Word.lean ====
section
/-! DEFINITION. The HCB's word and byte types (spec/00_scope.md R6, R8, R9). -/

namespace Sys2Proof

/-- A host register or a latched operand: `REG_W` = 32 bits (R6). -/
abbrev Word := BitVec 32

/-- A symbol or a stream byte: `SYM_W` = 8 bits (R6). -/
abbrev Byte := BitVec 8

/-- A bit string, first bit first (R9). -/
abbrev BitString := List Bool

end Sys2Proof
end

