-- ==== Sys2Proof/Machine/Types.lean ====
section
/-! DEFINITION. The things State is made of: node ids and nodes, code entries, completion codes, the
pending command, host registers, and the turns of the two agents. -/

namespace Sys2Proof.Machine

/-- A node id, "a natural number 0..510 indexing the node arena" (00_scope.md R13). -/
abbrev NodeId := Fin 511

/-- An entry of the node arena (00_scope.md R13, 10_state.md R51). -/
inductive Node where
  /-- `Leaf(sym, f)`. -/
  | leaf (sym : Byte) (f : Word)
  /-- `Internal(f, left, right)`. -/
  | internal (f : Word) (left right : NodeId)
deriving DecidableEq, Repr, Inhabited

/-- The node arena `node[0..510]` (10_state.md R51). -/
abbrev Arena := Vector Node 511

/-- An entry of the code table: `Absent` or `Present(bits)` (10_state.md R53). -/
inductive CodeEntry where
  | absent
  | present (bits : BitString)
deriving DecidableEq, Repr, Inhabited

/-- The completion codes of 60_exceptions.md R211. Codes 9 to 15 are "never produced", so they have no
constructor (93_implementation_defined.md X10). -/
inductive CompletionCode where
  | ok
  | illegal
  | notReady
  | noSymbol
  | freqOvf
  | totalOvf
  | truncated
  | decDone
  | range
deriving DecidableEq, Repr

/-- The pending-command latch's pair `(word, arg)` (10_state.md R49). -/
structure Command where
  word : Word
  arg : Word
deriving DecidableEq, Repr

/-- The host registers of the register map (10_state.md R62). -/
inductive HostReg where
  | id
  | ctrl
  | status
  | cmd
  | arg
  | result0
  | result1
  | inData
  | outData
  | levels
  | total
  | decRem
  | nleaf
  | param
deriving DecidableEq, Repr

/-- A host register access at a byte offset (20_memory.md R70, R71, R93). Its width is its number of
byte lanes; only four lanes at a multiple of 4 is a defined access. -/
inductive HostAccess where
  /-- A read of `lanes` byte lanes. -/
  | read (off : Byte) (lanes : Nat)
  /-- A write of the given byte lanes, lane 0 first (20_memory.md R73). -/
  | write (off : Byte) (lanes : List Byte)
deriving DecidableEq, Repr

/-- One turn of the interleaving (10_state.md R30, R31): the host's, the sequencer's, or a change of
the reset input (70_reset_and_hazards.md R240). -/
inductive Turn where
  | host (a : HostAccess)
  | sequencer
  | resetInput (asserted : Bool)
deriving DecidableEq, Repr

end Sys2Proof.Machine
end

