-- ==== Sys2Proof/Config.lean ====
section
/-! DEFINITION. What the spec leaves open, as uninterpreted constants: the FIFO depths and the contents
of tables the spec calls unspecified. None has a body, so no proof can see a value of one. -/

namespace Sys2Proof

/-- How far `IN_DEPTH` lies above its lower bound 32 (00_scope.md R6: 32 ≤ IN_DEPTH ≤ 65535). OPEN. -/
opaque Config.inDepthAbove32 : Fin 65504

/-- How far `OUT_DEPTH` lies above its lower bound 32 (00_scope.md R6). OPEN. -/
opaque Config.outDepthAbove32 : Fin 65504

/-- `IN_DEPTH` of the instance that State.reset stands for (00_scope.md R6, R7). -/
def Config.inDepth : Nat := Config.inDepthAbove32.val + 32

/-- `OUT_DEPTH` of the instance that State.reset stands for (00_scope.md R6, R7). -/
def Config.outDepth : Nat := Config.outDepthAbove32.val + 32

/-- Free value: an entry of the node arena whose contents the spec leaves open
(93_implementation_defined.md X3). The first argument is the free counter. -/
opaque Config.freeNode : Nat → Fin 511 → Machine.Node

/-- Free value: the storage of a code table entry whose contents the spec leaves open, "a present flag,
an 8-bit length and 255 code bits" (10_state.md R53, 93_implementation_defined.md X3). -/
opaque Config.freeCodeStorage : Nat → Fin 256 → Bool × Byte × BitVec 255

/-- Free value: an entry of the leaf order table whose contents the spec leaves open
(10_state.md R54, 93_implementation_defined.md X3). -/
opaque Config.freeLeafOrd : Nat → Fin 256 → Machine.NodeId

end Sys2Proof
end

