-- ==== Sys2Proof/Machine/Operands.lean ====
section
/-! DEFINITION. Bit strings and their packing, byte lanes, and operand assembly: the pure helpers of the
command rules. -/

namespace Sys2Proof.Machine

/-- The first `n` bits of a vector read from its most significant bit down:
`[v[w-1], v[w-2], …, v[w-n]]`. -/
def msbBits {w : Nat} (v : BitVec w) (n : Nat) : BitString :=
  (List.range n).map fun j => v.getLsbD (w - 1 - j)

/-- `Bits(b) = [b[7], …, b[0]]` (43_bit_buffer.md R154, R155). -/
def bitsOfByte (b : Byte) : BitString := msbBits b 8

/-- Weighs a bit string's bits from bit `w - 1` down: `Σ over j of p[j] << (w - 1 - j)`. With w = 8 it is
`Byte` of 43_bit_buffer.md R152 and the padded byte of R153, with w = 32 the word of 42_code_table.md
R138. The bits a shorter string does not have count 0. -/
def packMsb (w : Nat) : BitString → Nat
  | [] => 0
  | b :: bs => b.toNat * 2 ^ (w - 1) + packMsb (w - 1) bs

/-- The byte a full or zero-padded bit string packs to (43_bit_buffer.md R152, R153). -/
def byteOfBits (q : BitString) : Byte := BitVec.ofNat 8 (packMsb 8 q)

/-- Word `w` of a code: bit `p[32·w + j]` at bit `31 - j`, and 0 past the code's end
(42_code_table.md R138). -/
def codeWord (p : BitString) (w : Nat) : Word := BitVec.ofNat 32 (packMsb 32 ((p.drop (32 * w)).take 32))

/-- BPUSH's bit string, the `n` most significant bits of ARG (30_encoding.md R103). -/
def argBits (n : Nat) (arg : Word) : BitString := msbBits arg n

/-- Byte lane k carries bits `[8k+7:8k]` (20_memory.md R73). -/
def lanesOfWord (v : Word) : List Byte := (List.range 4).map fun k => v.extractLsb' (8 * k) 8

/-- The word whose byte lanes are given, lane 0 the least significant (20_memory.md R73). -/
def wordOfLanes (lanes : List Byte) : Word :=
  lanes.foldr (fun b acc => acc <<< 8 ||| b.setWidth 32) 0

/-- The 256 symbols in ascending order. -/
def allSymbols : List Byte := (List.range 256).map (BitVec.ofNat 8)

/-- A node's frequency, "written `node[n].freq`" (00_scope.md R13). -/
def Node.freq : Node → Word
  | .leaf _ f => f
  | .internal f _ _ => f

/-- RESULT0 of NRD: IS_INTERNAL, LEFT, RIGHT, five zero bits and SYM from bit 31 down; a leaf has
LEFT = RIGHT = 0 and an internal node SYM = 0 (41_tree_builder.md R127). -/
def nodeWord : Node → Word
  | .leaf sym _ => 0#1 ++ 0#9 ++ 0#9 ++ 0#5 ++ sym
  | .internal _ left right =>
    1#1 ++ BitVec.ofNat 9 left.val ++ BitVec.ofNat 9 right.val ++ 0#5 ++ 0#8

/-- `0x100 | b`: a VALID or PRESENT bit above one byte (10_state.md R42, 42_code_table.md R138). -/
def flaggedByte (b : Byte) : Word := 0#23 ++ 1#1 ++ b

/-- `|code[s]|`, for a present entry; an absent one has no code. -/
def CodeEntry.length : CodeEntry → Nat
  | .absent => 0
  | .present bits => bits.length

end Sys2Proof.Machine
end

