-- ==== Sys2Proof/Machine/Tables.lean ====
section
/-! DEFINITION. Reading and writing the internal tables by symbol (10_state.md R50, R53), and the
unspecified contents of the tables (93_implementation_defined.md X3). -/

namespace Sys2Proof.Machine

/-- Entry `s` of a table with one entry per symbol. -/
def symEntry {α : Type} (t : Vector α 256) (s : Byte) : α := t[s.toNat]'s.isLt

/-- The table with entry `s` replaced. -/
def setSymEntry {α : Type} (t : Vector α 256) (s : Byte) (a : α) : Vector α 256 := t.set s.toNat a s.isLt

/-- The k-th unspecified node arena: every entry a free value. -/
def freeArena (k : Nat) : Arena := Vector.ofFn (Config.freeNode k)

/-- The code entry that a present flag, a length and 255 code bits hold (10_state.md R53). -/
def codeEntryOfStorage (st : Bool × Byte × BitVec 255) : CodeEntry :=
  if st.1 then .present ((msbBits st.2.2 255).take st.2.1.toNat) else .absent

/-- The k-th unspecified code table: every entry a free value. -/
def freeCodes (k : Nat) : Vector CodeEntry 256 :=
  Vector.ofFn fun i => codeEntryOfStorage (Config.freeCodeStorage k i)

/-- The k-th unspecified leaf order table: every entry a free value. -/
def freeLeafOrder (k : Nat) : Vector NodeId 256 := Vector.ofFn (Config.freeLeafOrd k)

end Sys2Proof.Machine
end

