-- ==== Sys2Proof/Machine/State.lean ====
section
/-! DEFINITION. The machine's state (spec/10_state.md), its reset value (R61), and the reasons a step can
stop. -/

namespace Sys2Proof.Machine

/-- The HCB's whole state, the instance's two constants, and the model's own four fields. Registers that
are functions of other state (STATUS.BUSY, WPEND, RRES, LEVELS, irq, the STATUS and CTRL words) are
computed in Flags.lean and HostPort.lean. -/
structure State where
  /-- CTRL.IE_DONE (R34). -/
  ieDone : Bool
  /-- CTRL.IE_ERR (R34). -/
  ieErr : Bool
  /-- CTRL.IE_OVR (R34). -/
  ieOvr : Bool
  /-- CTRL.IN_EOS (R34). -/
  inEos : Bool
  /-- STATUS.DONE (R35). -/
  done : Bool
  /-- STATUS.ERR (R35). -/
  err : Bool
  /-- STATUS.CMD_OVR (R35). -/
  cmdOvr : Bool
  /-- STATUS.IN_OVR (R35). -/
  inOvr : Bool
  /-- STATUS.TREE_VALID (R35). -/
  treeValid : Bool
  /-- STATUS.CODES_VALID (R35). -/
  codesValid : Bool
  /-- STATUS.ENC_ACTIVE (R35). -/
  encActive : Bool
  /-- STATUS.DEC_ACTIVE (R35). -/
  decActive : Bool
  /-- STATUS.TREE_EMPTY (R35). -/
  treeEmpty : Bool
  /-- STATUS.TREE_SINGLE (R35). -/
  treeSingle : Bool
  /-- STATUS.CC (R35). -/
  cc : CompletionCode
  /-- STATUS.FIRST_ERR (R35). -/
  firstErr : CompletionCode
  /-- CMD, the last accepted command word (R37). -/
  cmd : Word
  /-- ARG (R38). -/
  arg : Word
  /-- RESULT0 (R39). -/
  result0 : Word
  /-- RESULT1 (R40). -/
  result1 : Word
  /-- TOTAL, the root frequency (R44). -/
  total : Word
  /-- DEC_REM, the symbols still to decode (R45). -/
  decRem : Word
  /-- NLEAF, the number of leaves, 9 bits (R46). -/
  nleaf : BitVec 9
  /-- The pending-command latch (R49). -/
  pending : Option Command
  /-- The frequency table (R50). -/
  freq : Vector Word 256
  /-- The node arena (R51). -/
  node : Arena
  /-- The root, a node id or NONE (R52). -/
  root : Option NodeId
  /-- The code table (R53). -/
  code : Vector CodeEntry 256
  /-- The leaf order table (R54). -/
  leafOrd : Vector NodeId 256
  /-- The write side of the bit buffer (R55). -/
  pend : BitString
  /-- The read side of the bit buffer (R56). -/
  resid : BitString
  /-- The IN FIFO, head first (R57). -/
  inq : List Byte
  /-- The OUT FIFO, head first (R58). -/
  outq : List Byte
  /-- IN_DEPTH, a constant of the instance (00_scope.md R6; 10_state.md R47). -/
  inDepth : Nat
  /-- OUT_DEPTH, a constant of the instance (00_scope.md R6; 10_state.md R47). -/
  outDepth : Nat
  /-- The level of the reset input (70_reset_and_hazards.md R240). The model's own field. -/
  rst : Bool
  /-- The turns still to come (R31); once it is empty every turn is the sequencer's. The model's own
  field (DESIGN CHOICE, log 1). -/
  schedule : List Turn
  /-- The byte lanes the last host read returned (20_memory.md R73, R93). The model's own field
  (DESIGN CHOICE, log 9). -/
  readLanes : List Byte
  /-- The index of the next unused free value. The model's own field (DESIGN CHOICE, log 6). -/
  freeCount : Nat
deriving DecidableEq, Repr

/-- Why the machine stops with a fault. The HCB itself has no trap (60_exceptions.md R210). -/
inductive Fault where
  /-- Raised by LRD when `leafOrd[i]` names no leaf, and by DSYM when a session has symbols left and no
  root: states in which the spec gives no effect and which no run reaches (41_tree_builder.md R125,
  45_decode.md R181). Safe (DESIGN CHOICE, log 10). -/
  | brokenTree
deriving DecidableEq, Repr

/-- Why a step is refused. -/
inductive Refusal where
  /-- Raised by an arm of exec whose instruction has no meaning yet; safe. No arm uses it. -/
  | notModelled (mnemonic : String)
  /-- Raised by a host access while the reset input is asserted: "not defined by this spec … a model
  refuses them" (70_reset_and_hazards.md R240, 93_implementation_defined.md X7). Safe (log 7). -/
  | hostAccessInReset
deriving DecidableEq, Repr

/-- What a turn or a command answers. -/
abbrev Result := Host.Outcome State Fault Refusal

/-- The state after a hardware reset (10_state.md R61). The tables the spec leaves unspecified hold free
values of index 0 (log 4), the depths are uninterpreted (log 3), the reset input has been released and
no turn is scheduled. -/
def State.reset : State where
  ieDone := false
  ieErr := false
  ieOvr := false
  inEos := false
  done := false
  err := false
  cmdOvr := false
  inOvr := false
  treeValid := false
  codesValid := false
  encActive := false
  decActive := false
  treeEmpty := false
  treeSingle := false
  cc := .ok
  firstErr := .ok
  cmd := 0
  arg := 0
  result0 := 0
  result1 := 0
  total := 0
  decRem := 0
  nleaf := 0
  pending := none
  freq := Vector.replicate 256 0
  node := freeArena 0
  root := none
  code := freeCodes 0
  leafOrd := freeLeafOrder 0
  pend := []
  resid := []
  inq := []
  outq := []
  inDepth := Config.inDepth
  outDepth := Config.outDepth
  rst := false
  schedule := []
  readLanes := []
  freeCount := 1

end Sys2Proof.Machine
end

