-- ==== Sys2Proof/Machine/Flags.lean ====
section
/-! DEFINITION. The completion codes as numbers, the sticky flags a completion sets, the CTRL and STATUS
words, and the interrupt line. -/

namespace Sys2Proof.Machine

/-- The 4-bit value of a completion code (60_exceptions.md R211). -/
def CompletionCode.bits : CompletionCode → BitVec 4
  | .ok => 0
  | .illegal => 1
  | .notReady => 2
  | .noSymbol => 3
  | .freqOvf => 4
  | .totalOvf => 5
  | .truncated => 6
  | .decDone => 7
  | .range => 8

/-- STATUS.BUSY = 1 exactly when the latch is non-empty (10_state.md R49). -/
def State.busy (s : State) : Bool := s.pending.isSome

/-- STATUS.ERR after a completion with code `cc`: set by an error, never cleared by a completion
(46_system.md R197, 60_exceptions.md R218). -/
def errAfter (cc : CompletionCode) (s : State) : Bool := s.err || cc != .ok

/-- STATUS.FIRST_ERR after a completion with code `cc`: the code of the completion that set ERR from 0
to 1 (46_system.md R197, 60_exceptions.md R219). -/
def firstErrAfter (cc : CompletionCode) (s : State) : CompletionCode :=
  if cc ≠ .ok ∧ s.err = false then cc else s.firstErr

/-- A Bool as one bit of a register word. -/
def flag (b : Bool) : BitVec 1 := BitVec.ofBool b

/-- The CTRL register as read: bits 4, 5 and [31:6] read 0 (10_state.md R34, 20_memory.md R75). -/
def State.ctrlWord (s : State) : Word :=
  0#28 ++ flag s.inEos ++ flag s.ieOvr ++ flag s.ieErr ++ flag s.ieDone

/-- The STATUS register as read, its fields from bit 31 down (10_state.md R35, 20_memory.md R81). -/
def State.statusWord (s : State) : Word :=
  0#4 ++ s.firstErr.bits ++ BitVec.ofNat 4 s.resid.length ++ BitVec.ofNat 4 s.pend.length ++ s.cc.bits
    ++ 0#1 ++ flag s.treeSingle ++ flag s.treeEmpty ++ flag s.decActive ++ flag s.encActive
    ++ flag s.codesValid ++ flag s.treeValid ++ flag s.inOvr ++ flag s.cmdOvr ++ flag s.err
    ++ flag s.done ++ flag s.busy

/-- The level of the interrupt output (60_exceptions.md R217). -/
def State.irq (s : State) : Bool :=
  (s.ieDone && s.done) || (s.ieErr && s.err) || (s.ieOvr && (s.cmdOvr || s.inOvr))

end Sys2Proof.Machine
end

