-- ==== Sys2Proof/Machine/Ops.lean ====
section
/-! DEFINITION. The operations the command rules share: the execution frame and `finish`
(46_system.md R195, R197), rejecting and holding, the bit buffer (43_bit_buffer.md R150 to R155), the
descent through the tree (45_decode.md R181), and the reset of all state (10_state.md R61). -/

namespace Sys2Proof.Machine

/-- `RESULT0 <- 0; RESULT1 <- 0`, the start of every command (46_system.md R195). -/
def State.clearResults (s : State) : State := { s with result0 := 0, result1 := 0 }

/-- `finish(cc)`: the one way a command ends, and this machine's counterpart of taking an exception.
Nothing is saved and control goes nowhere (46_system.md R197, 60_exceptions.md R210, R220). -/
def State.finish (cc : CompletionCode) (s : State) : State :=
  { s with
    cc := cc
    done := true
    err := errAfter cc s
    firstErr := firstErrAfter cc s
    pending := none }

/-- A command that ends with an error code, its results 0 (46_system.md R195, 60_exceptions.md R210).
The session effects a rule names for the failure are already in `s`. -/
def reject (cc : CompletionCode) (s : State) : Result := .next (s.clearResults.finish cc)

/-- A command that ends with OK. -/
def complete (s : State) : Result := .next (s.finish .ok)

/-- A held command: no step is taken, "no state changes, `pending` stays non-empty and BUSY stays 1"
(46_system.md R198). The answer is the same state (DESIGN CHOICE, log 2). -/
def hold (s : State) : Result := .next s

/-- The command word being executed: the latch's (10_state.md R49); CMD where nothing is latched, a case
no step makes (DESIGN CHOICE, log 12). -/
def State.currentWord (s : State) : Word :=
  match s.pending with
  | some c => c.word
  | none => s.cmd

/-- `Emit(b)`: append a byte to the OUT FIFO (00_scope.md R12). -/
def State.emit (b : Byte) (s : State) : State := { s with outq := s.outq ++ [b] }

/-- `OUT_DEPTH − |outq| ≥ k`: the OUT FIFO has room for k bytes (43_bit_buffer.md R151). -/
def State.outRoom (s : State) (k : Nat) : Bool := decide (k ≤ s.outDepth - s.outq.length)

/-- One turn of PushBits' loop (43_bit_buffer.md R150). -/
def State.pushBit (s : State) (x : Bool) : State :=
  if (s.pend ++ [x]).length = 8 then
    { s.emit (byteOfBits (s.pend ++ [x])) with pend := [] }
  else
    { s with pend := s.pend ++ [x] }

/-- `PushBits(p)` (43_bit_buffer.md R150). -/
def State.pushBits (p : BitString) (s : State) : State := p.foldl State.pushBit s

/-- The number of bytes `PushBits` of n bits emits: `⌊(|pend| + n)/8⌋` (43_bit_buffer.md R151). -/
def State.pushCount (s : State) (n : Nat) : Nat := (s.pend.length + n) / 8

/-- `FlushBits()`: emit the pending bits as a zero-padded byte, if there are any (43_bit_buffer.md R153). -/
def State.flushBits (s : State) : State :=
  if 0 < s.pend.length then { s.emit (byteOfBits s.pend) with pend := [] } else s

/-- What `NextBit()` returns: a bit with the state after it, EXHAUSTED, or WAIT (43_bit_buffer.md R154). -/
inductive NextBit where
  | bit (x : Bool) (s : State)
  | exhausted
  | wait
deriving DecidableEq, Repr

/-- `NextBit()` (43_bit_buffer.md R154). -/
def State.nextBit (s : State) : NextBit :=
  match s.resid, s.inq with
  | x :: resid, _ => .bit x { s with resid := resid }
  | [], b :: inq =>
    .bit (b.getLsbD 7) { s with inq := inq, resid := (bitsOfByte b).tail }
  | [], [] => if s.inEos then .exhausted else .wait

/-- `repeat k times: NextBit()` (45_decode.md R182). It stops early only where no bit is available, which
its caller excludes. -/
def State.consumeBits : Nat → State → State
  | 0, s => s
  | k + 1, s =>
    match s.nextBit with
    | .bit _ s' => State.consumeBits k s'
    | .exhausted => s
    | .wait => s

/-- `Avail`, the available bit stream (43_bit_buffer.md R155). -/
def State.avail (s : State) : BitString := s.resid ++ s.inq.flatMap bitsOfByte

/-- `Descend(A)` from node `n`: the number of bits used, the leaf reached and its symbol, or none for
SHORT (45_decode.md R181). -/
def descend (node : Arena) (n : NodeId) : BitString → Option (Nat × NodeId × Byte)
  | [] =>
    match node[n] with
    | .leaf sym _ => some (0, n, sym)
    | .internal _ _ _ => none
  | x :: rest =>
    match node[n] with
    | .leaf sym _ => some (0, n, sym)
    | .internal _ left right =>
      (descend node (if x then right else left) rest).map fun r => (r.1 + 1, r.2)

/-- Every piece of state at its reset value (10_state.md R61): the instance's depths stay, the
unspecified tables take the next free values (log 4), and what belongs to the outside world (the reset
input, the schedule, the last read) stays. -/
def State.resetAll (s : State) : State :=
  { State.reset with
    node := freeArena s.freeCount
    code := freeCodes s.freeCount
    leafOrd := freeLeafOrder s.freeCount
    inDepth := s.inDepth
    outDepth := s.outDepth
    rst := s.rst
    schedule := s.schedule
    readLanes := s.readLanes
    freeCount := s.freeCount + 1 }

end Sys2Proof.Machine
end

