-- ==== Sys2Proof/Machine/HostPort.lean ====
section
/-! DEFINITION. The host's side of the machine: the register map, register reads and writes
(spec/20_memory.md R70 to R82), the reset input (70_reset_and_hazards.md R240), and the assembler's
pseudo-operations (30_encoding.md R106 to R108). -/

namespace Sys2Proof.Machine

/-- The register at a word-aligned byte offset (10_state.md R62). The offsets 0x38 to 0xFC are reserved
(R48), and an offset that is no multiple of 4 names no register (20_memory.md R71). -/
def regAt (off : Byte) : Option HostReg :=
  match off.toNat with
  | 0x00 => some .id
  | 0x04 => some .ctrl
  | 0x08 => some .status
  | 0x0C => some .cmd
  | 0x10 => some .arg
  | 0x14 => some .result0
  | 0x18 => some .result1
  | 0x1C => some .inData
  | 0x20 => some .outData
  | 0x24 => some .levels
  | 0x28 => some .total
  | 0x2C => some .decRem
  | 0x30 => some .nleaf
  | 0x34 => some .param
  | _ => none

/-- The ID constant: "HCB" and version 1 (10_state.md R33). -/
def idWord : Word := 0x48434201

/-- A read of OUT_DATA: the head byte with VALID, popped, or 0 with no effect (20_memory.md R80). -/
def readOutData (s : State) : Word × State :=
  match s.outq with
  | b :: rest => (flaggedByte b, { s with outq := rest })
  | [] => (0, s)

/-- The value a read of a register returns and the state after it (10_state.md R33 to R47;
20_memory.md R75, R80, R81, R93). Only OUT_DATA has a side effect. -/
def readReg (r : HostReg) (s : State) : Word × State :=
  match r with
  | .id => (idWord, s)
  | .ctrl => (s.ctrlWord, s)
  | .status => (s.statusWord, s)
  | .cmd => (s.cmd, s)
  | .arg => (s.arg, s)
  | .result0 => (s.result0, s)
  | .result1 => (s.result1, s)
  | .inData => (0, s)
  | .outData => readOutData s
  | .levels => (BitVec.ofNat 16 s.outq.length ++ BitVec.ofNat 16 s.inq.length, s)
  | .total => (s.total, s)
  | .decRem => (s.decRem, s)
  | .nleaf => (0#23 ++ s.nleaf, s)
  | .param => (BitVec.ofNat 16 s.outDepth ++ BitVec.ofNat 16 s.inDepth, s)

/-- A write of CTRL: the enables and IN_EOS take the written bits, IN_CLR and OUT_CLR empty a FIFO
(20_memory.md R75). -/
def writeCtrl (v : Word) (s : State) : State :=
  { s with
    ieDone := v.getLsbD 0
    ieErr := v.getLsbD 1
    ieOvr := v.getLsbD 2
    inEos := v.getLsbD 3
    inq := if v.getLsbD 4 then [] else s.inq
    outq := if v.getLsbD 5 then [] else s.outq }

/-- A write of STATUS: bits 1 to 4 clear the sticky flags; clearing ERR clears FIRST_ERR
(20_memory.md R76). -/
def writeStatus (v : Word) (s : State) : State :=
  { s with
    done := s.done && !v.getLsbD 1
    err := s.err && !v.getLsbD 2
    firstErr := if v.getLsbD 2 then .ok else s.firstErr
    cmdOvr := s.cmdOvr && !v.getLsbD 3
    inOvr := s.inOvr && !v.getLsbD 4 }

/-- A write of CMD: issue the command with ARG latched beside it, or drop it and set CMD_OVR
(20_memory.md R77). -/
def writeCmd (v : Word) (s : State) : State :=
  match s.pending with
  | some _ => { s with cmdOvr := true }
  | none => { s with pending := some { word := v, arg := s.arg }, cmd := v }

/-- A write of IN_DATA: push the byte, or drop it and set IN_OVR (20_memory.md R79). -/
def writeInData (v : Word) (s : State) : State :=
  if s.inEos = true ∨ s.inq.length = s.inDepth then
    { s with inOvr := true }
  else
    { s with inq := s.inq ++ [v.extractLsb' 0 8] }

/-- A write of a register; a write of a read-only register or of OUT_DATA is ignored
(20_memory.md R75 to R81). -/
def writeReg (r : HostReg) (v : Word) (s : State) : State :=
  match r with
  | .ctrl => writeCtrl v s
  | .status => writeStatus v s
  | .cmd => writeCmd v s
  | .arg => { s with arg := v }
  | .inData => writeInData v s
  | .id | .result0 | .result1 | .outData | .levels | .total | .decRem | .nleaf | .param => s

/-- `HostRead(off)`: a register's value, or 0 with no effect at a reserved offset
(20_memory.md R72, R93). -/
def hostRead (off : Byte) (s : State) : Word × State :=
  match regAt off with
  | some r => readReg r s
  | none => (0, s)

/-- `HostWrite(off, v)`; a write at a reserved offset is ignored (20_memory.md R72, R93). -/
def hostWrite (off : Byte) (v : Word) (s : State) : State :=
  match regAt off with
  | some r => writeReg r v s
  | none => s

/-- Only a 32-bit access at a multiple of 4 is defined (20_memory.md R71). -/
def definedAccess (off : Byte) (lanes : Nat) : Bool := decide (off.toNat % 4 = 0 ∧ lanes = 4)

/-- A host access. One that is not defined has no effect, and a read of that kind returns zeros
(20_memory.md R71; log 9). -/
def performAccess (a : HostAccess) (s : State) : State :=
  match a with
  | .read off lanes =>
    if definedAccess off lanes then
      { (hostRead off s).2 with readLanes := lanesOfWord (hostRead off s).1 }
    else
      { s with readLanes := List.replicate lanes 0 }
  | .write off lanes =>
    if definedAccess off lanes.length then hostWrite off (wordOfLanes lanes) s else s

/-- The host's turn; while the reset input is asserted its accesses are not defined and refused
(70_reset_and_hazards.md R240, 93_implementation_defined.md X7; log 7). -/
def hostTurn (a : HostAccess) (s : State) : Result :=
  if s.rst then .refused .hostAccessInReset else .next (performAccess a s)

/-- A level of the reset input: while it is asserted, and at the end of its assertion, every piece of
state takes its reset value (70_reset_and_hazards.md R240; log 13). -/
def resetTurn (asserted : Bool) (s : State) : State :=
  if asserted || s.rst then { s.resetAll with rst := asserted } else s

/-- A 32-bit read at an offset. -/
def readAccess (off : Byte) : HostAccess := .read off 4

/-- A 32-bit write of `v` at an offset, as its byte lanes (20_memory.md R73). -/
def writeAccess (off : Byte) (v : Word) : HostAccess := .write off (lanesOfWord v)

/-- `ARG v` (30_encoding.md R106). -/
def pseudoArg (v : Word) : HostAccess := writeAccess 0x10 v

/-- One poll of `WAIT`: a read of STATUS, repeated until BUSY = 0 (30_encoding.md R106). -/
def pseudoWaitPoll : HostAccess := readAccess 0x08

/-- `PUT b` (30_encoding.md R106). -/
def pseudoPut (b : Byte) : HostAccess := writeAccess 0x1C (b.setWidth 32)

/-- `GET` (30_encoding.md R106). -/
def pseudoGet : HostAccess := readAccess 0x20

/-- The write of `EOS`, given what CTRL read: keep the enables, set IN_EOS (30_encoding.md R106). -/
def pseudoEos (ctrl : Word) : HostAccess := writeAccess 0x04 ((ctrl &&& 0x7) ||| 0x8)

/-- The write of `NEWIN`, given what CTRL read: keep the enables, clear IN_EOS, empty the IN FIFO
(30_encoding.md R106). -/
def pseudoNewin (ctrl : Word) : HostAccess := writeAccess 0x04 ((ctrl &&& 0x7) ||| 0x10)

/-- `CLRST` (30_encoding.md R106). -/
def pseudoClrst : HostAccess := writeAccess 0x08 0x1E

/-- A command line of a listing: the CMD write, then the sequencer's turn that WAIT waits for
(30_encoding.md R108). -/
def commandLine (word : Word) : List Turn := [.host (writeAccess 0x0C word), .sequencer]

/-- `PUSHB n, v`: ARG is `trunc_32(v << (32−n))`, then BPUSH n (30_encoding.md R107). -/
def pushbArg (n : Nat) (v : Word) : Word := BitVec.ofNat 32 (v.toNat * 2 ^ (32 - n))

end Sys2Proof.Machine
end

