-- ==== Sys2Proof/Syntax.lean ====
section
/-! DEFINITION. The HCB's commands: one constructor for each row of spec/opcode_table.json
(30_encoding.md R98). -/

namespace Sys2Proof

/-- A command with the operands its rule reads (30_encoding.md R96, R101 to R104). `sym` is the SYM
field, `idx` the IDX field (an index or a count, hence a number), `arg` the ARG value latched at issue
beside the command word. Fields a command does not read are no part of it (R97). -/
inductive Instr where
  /-- 0x00, no operation (46_system.md R196). -/
  | nop
  /-- 0x01, soft reset (46_system.md R199). -/
  | sreset
  /-- 0x10, clear the frequency table (40_frequency.md R110). -/
  | fclr
  /-- 0x11, write one frequency entry (40_frequency.md R111). -/
  | fwr (sym : Byte) (arg : Word)
  /-- 0x12, read one frequency entry (40_frequency.md R112). -/
  | frd (sym : Byte)
  /-- 0x13, count one occurrence (40_frequency.md R113). -/
  | finc (sym : Byte)
  /-- 0x20, build the Huffman tree (41_tree_builder.md R120). -/
  | build
  /-- 0x21, derive the code table (42_code_table.md R135). -/
  | genc
  /-- 0x22, read a word of a code (42_code_table.md R138). -/
  | crd (sym : Byte) (idx : Nat)
  /-- 0x23, read a leaf in header order (42_code_table.md R139). -/
  | lrd (idx : Nat)
  /-- 0x24, read a node (41_tree_builder.md R127). -/
  | nrd (idx : Nat)
  /-- 0x30, start an encode session (44_encode.md R165). -/
  | estart
  /-- 0x31, encode one symbol (44_encode.md R166). -/
  | esym (sym : Byte)
  /-- 0x32, flush the write side (44_encode.md R169). -/
  | eflush
  /-- 0x33, push raw bits (43_bit_buffer.md R157). -/
  | bpush (idx : Nat) (arg : Word)
  /-- 0x40, start a decode session (45_decode.md R180). -/
  | dstart
  /-- 0x41, decode one symbol (45_decode.md R182). -/
  | dsym
  /-- 0x42, read one raw bit (43_bit_buffer.md R158). -/
  | bget
deriving DecidableEq, Repr

end Sys2Proof
end

