-- ==== Sys2Proof/WellFormed.lean ====
section
/-! DEFINITION. When a command can be written as a command word. Symbols and ARG values fit by their
type; an IDX operand is a number that must fit the 16-bit field (30_encoding.md R96). -/

namespace Sys2Proof

/-- The IDX field holds "an unsigned number 0..65535" (30_encoding.md R96). -/
abbrev fitsIdx (idx : Nat) : Bool := decide (idx < 65536)

/-- A command is well formed when its IDX operand, if it has one, fits the field. An index outside a
command's own range is well formed: it completes with RANGE (30_encoding.md R104). -/
def Instr.wellFormed : Instr → Bool
  | .crd _ idx => fitsIdx idx
  | .lrd idx => fitsIdx idx
  | .nrd idx => fitsIdx idx
  | .bpush idx _ => fitsIdx idx
  | .nop | .sreset | .fclr | .fwr _ _ | .frd _ | .finc _ | .build | .genc | .estart | .esym _
  | .eflush | .dstart | .dsym | .bget => true

end Sys2Proof
end

