-- ==== Sys2Proof/Decode.lean ====
section
/-! DEFINITION. Decoding the pair (command word, latched ARG) and the encoder written from the same
table (30_encoding.md R95 to R107). -/

namespace Sys2Proof

/-- Why a command word is no command. -/
inductive DecodeError where
  /-- OP is not in the table of 30_encoding.md R98 (R99). The machine still executes such a word: it
  completes with ILLEGAL (46_system.md R200). -/
  | illegalOpcode (op : Byte)
deriving DecidableEq, Repr

/-- `op = word[31:24]` (30_encoding.md R96). -/
def opField (word : Word) : Byte := word.extractLsb' 24 8

/-- `sym = word[23:16]`, an unsigned symbol value (30_encoding.md R96). -/
def symField (word : Word) : Byte := word.extractLsb' 16 8

/-- `idx = word[15:0]`, an unsigned number (30_encoding.md R96). -/
def idxField (word : Word) : Nat := (word.extractLsb' 0 16).toNat

/-- Selects the command by OP alone (30_encoding.md R98). -/
def decode (word arg : Word) : Except DecodeError Instr :=
  match (opField word).toNat with
  | 0x00 => .ok .nop
  | 0x01 => .ok .sreset
  | 0x10 => .ok .fclr
  | 0x11 => .ok (.fwr (symField word) arg)
  | 0x12 => .ok (.frd (symField word))
  | 0x13 => .ok (.finc (symField word))
  | 0x20 => .ok .build
  | 0x21 => .ok .genc
  | 0x22 => .ok (.crd (symField word) (idxField word))
  | 0x23 => .ok (.lrd (idxField word))
  | 0x24 => .ok (.nrd (idxField word))
  | 0x30 => .ok .estart
  | 0x31 => .ok (.esym (symField word))
  | 0x32 => .ok .eflush
  | 0x33 => .ok (.bpush (idxField word) arg)
  | 0x40 => .ok .dstart
  | 0x41 => .ok .dsym
  | 0x42 => .ok .bget
  | _ => .error (.illegalOpcode (opField word))

/-- A command word with every field: OP, SYM and IDX from the top bit down (30_encoding.md R95). -/
def commandWord (op : Byte) (sym : Byte) (idx : Nat) : Word := op ++ sym ++ BitVec.ofNat 16 idx

/-- The OP value of each command (30_encoding.md R98). -/
def Instr.opcode : Instr → Byte
  | .nop => 0x00
  | .sreset => 0x01
  | .fclr => 0x10
  | .fwr _ _ => 0x11
  | .frd _ => 0x12
  | .finc _ => 0x13
  | .build => 0x20
  | .genc => 0x21
  | .crd _ _ => 0x22
  | .lrd _ => 0x23
  | .nrd _ => 0x24
  | .estart => 0x30
  | .esym _ => 0x31
  | .eflush => 0x32
  | .bpush _ _ => 0x33
  | .dstart => 0x40
  | .dsym => 0x41
  | .bget => 0x42

/-- The command word an assembler writes: unused fields are 0 (30_encoding.md R97, R105). -/
def encodeWord (i : Instr) : Word :=
  match i with
  | .fwr sym _ | .frd sym | .finc sym | .esym sym => commandWord i.opcode sym 0
  | .crd sym idx => commandWord i.opcode sym idx
  | .lrd idx | .nrd idx | .bpush idx _ => commandWord i.opcode 0 idx
  | .nop | .sreset | .fclr | .build | .genc | .estart | .eflush | .dstart | .dsym | .bget =>
    commandWord i.opcode 0 0

/-- The ARG value to be in the ARG register when the command is issued (30_encoding.md R102); 0 where
the command does not read ARG. -/
def encodeArg : Instr → Word
  | .fwr _ arg => arg
  | .bpush _ arg => arg
  | .nop | .sreset | .fclr | .frd _ | .finc _ | .build | .genc | .crd _ _ | .lrd _ | .nrd _
  | .estart | .esym _ | .eflush | .dstart | .dsym | .bget => 0

/-- What the latch holds when the command is pending: its word and its ARG value (10_state.md R49). -/
def encode (i : Instr) : Word × Word := (encodeWord i, encodeArg i)

/-- A character literal of the assembler stands for its ASCII code (30_encoding.md R105). -/
def symbolOfChar (c : Char) : Byte := BitVec.ofNat 8 c.toNat

/-- The word and the ARG value that the low `nbits` bits of `w` give: the command word is the first
32-bit word and ARG, the operand latched beside it, the second. -/
def tableWordPair (nbits w : Nat) : Word × Word :=
  let bits := w % 2 ^ nbits
  (BitVec.ofNat 32 bits, BitVec.ofNat 32 (bits / 2 ^ 32))

/-- The instruction the decoder reads from the bits of an opcode-table row. -/
def decodeTableWord (nbits w : Nat) : Option Instr :=
  match decode (tableWordPair nbits w).1 (tableWordPair nbits w).2 with
  | .ok i => some i
  | .error _ => none

end Sys2Proof
end

