-- ==== Sys2Proof/Machine/BitBuffer.lean ====
section
/-! DEFINITION. The raw bit-buffer commands BPUSH and BGET (spec/43_bit_buffer.md R157, R158). -/

namespace Sys2Proof.Machine

/-- BPUSH n: push the n most significant bits of ARG (R157). -/
def execBpush (idx : Nat) (arg : Word) (s : State) : Result :=
  if 32 < idx then
    reject .range s
  else
    let k := s.pushCount idx
    if s.outRoom k then
      complete
        { s.clearResults.pushBits (argBits idx arg) with
          result0 := BitVec.ofNat 32 k
          result1 := BitVec.ofNat 32 idx }
    else
      hold s

/-- BGET: read one raw bit; TRUNCATED when the input is exhausted, held while it may still come
(R158, R154). -/
def execBget (s : State) : Result :=
  match s.clearResults.nextBit with
  | .exhausted => reject .truncated s
  | .wait => hold s
  | .bit x s' => complete { s' with result0 := if x then 1 else 0 }

end Sys2Proof.Machine
end

