-- ==== Sys2Proof/Machine/Tree.lean ====
section
/-! DEFINITION. The tree builder: BUILD and NRD (spec/41_tree_builder.md R120 to R128). -/

namespace Sys2Proof.Machine

/-- The present symbols in ascending order: `[s in 0..255 such that freq[s] ≠ 0]` (R120). -/
def presentSymbols (freq : Vector Word 256) : List Byte :=
  allSymbols.filter fun sym => symEntry freq sym != 0

/-- `Σ over s in S of freq[s]`, unbounded (R120, R128). -/
def frequencySum (freq : Vector Word 256) : Nat :=
  ((presentSymbols freq).map fun sym => (symEntry freq sym).toNat).sum

/-- `node[n] <- v` for a number n; ids stay below 511 (R122), so nothing is ever dropped. -/
def setNode (node : Arena) (n : Nat) (v : Node) : Arena :=
  if h : n < 511 then node.set n v h else node

/-- A number as a node id; ids stay below 511 (R122). -/
def nodeIdOf (n : Nat) : NodeId := Fin.ofNat 511 n

/-- `for i in 0..N−1: node[i] <- Leaf(S[i], freq[S[i]])`, from node id i on (R120, R122). -/
def seedLeaves (freq : Vector Word 256) : List Byte → Nat → Arena → Arena
  | [], _, node => node
  | sym :: rest, i, node => seedLeaves freq rest (i + 1) (setNode node i (.leaf sym (symEntry freq sym)))

/-- `key(a) < key(b)`: the lower frequency first, then the lower id (R121). -/
def keyLess (node : Arena) (a b : NodeId) : Bool :=
  decide (node[a].freq.toNat < node[b].freq.toNat)
    || (decide (node[a].freq.toNat = node[b].freq.toNat) && decide (a < b))

/-- The id with the least key in a non-empty queue `q :: rest` (R121). -/
def leastKey (node : Arena) (q : NodeId) (rest : List NodeId) : NodeId :=
  rest.foldl (fun best n => if keyLess node n best then n else best) q

/-- "the n in Q with the least key(n); Q <- Q − {n}" (R120). -/
def extractLeast (node : Arena) : List NodeId → Option (NodeId × List NodeId)
  | [] => none
  | q :: rest =>
    let least := leastKey node q rest
    some (least, (q :: rest).erase least)

/-- `while |Q| ≥ 2`: extract the two least, merge them with the first as the left child, and insert the
new node (R120, R122, R123). Each turn makes Q one shorter, so N turns are enough. -/
def mergeLoop : Nat → Arena → List NodeId → Nat → Arena × List NodeId
  | 0, node, queue, _ => (node, queue)
  | turns + 1, node, queue, next =>
    match extractLeast node queue with
    | none => (node, queue)
    | some (a, queue1) =>
      match extractLeast node queue1 with
      | none => (node, queue)
      | some (b, queue2) =>
        mergeLoop turns (setNode node next (.internal (node[a].freq + node[b].freq) a b))
          (queue2 ++ [nodeIdOf next]) (next + 1)

/-- The arena and the root that BUILD makes from a frequency table, over an arena whose other entries
are unspecified (R120, R126). -/
def buildTree (freq : Vector Word 256) (node : Arena) : Arena × Option NodeId :=
  let symbols := presentSymbols freq
  let n := symbols.length
  let merged := mergeLoop n (seedLeaves freq symbols 0 node) ((List.range n).map nodeIdOf) n
  (merged.1, merged.2.head?)

/-- BUILD's invalidation, "done whether or not the build succeeds" (R120). -/
def State.invalidateTree (s : State) : State :=
  { s with
    treeValid := false
    codesValid := false
    treeEmpty := false
    treeSingle := false
    encActive := false
    decActive := false
    total := 0
    nleaf := 0
    decRem := 0
    root := none }

/-- BUILD (R120). The arena's entries past the new tree take the next free values
(93_implementation_defined.md X3, log 5). -/
def execBuild (s : State) : Result :=
  let sum := frequencySum s.freq
  if 0xFFFFFFFF < sum then
    reject .totalOvf s.invalidateTree
  else
    let n := (presentSymbols s.freq).length
    let tree := buildTree s.freq (freeArena s.freeCount)
    complete
      { s.clearResults.invalidateTree with
        node := tree.1
        root := tree.2
        treeValid := true
        treeEmpty := n == 0
        treeSingle := n == 1
        total := BitVec.ofNat 32 sum
        nleaf := BitVec.ofNat 9 n
        result0 := BitVec.ofNat 32 n
        result1 := BitVec.ofNat 32 sum
        freeCount := s.freeCount + 1 }

/-- NRD n: read one node of the tree (R127). -/
def execNrd (idx : Nat) (s : State) : Result :=
  if s.treeValid = false then
    reject .notReady s
  else if s.nleaf.toNat = 0 ∨ 2 * s.nleaf.toNat - 2 < idx then
    reject .range s
  else
    let v := s.node[nodeIdOf idx]
    complete { s.clearResults with result0 := nodeWord v, result1 := v.freq }

end Sys2Proof.Machine
end

