-- ==== Sys2Proof/Machine/CodeTable.lean ====
section
/-! DEFINITION. The code table generator: GENC, CRD and LRD (spec/42_code_table.md R135 to R139). -/

namespace Sys2Proof.Machine

/-- `Visit(n, p)`: the leaves below node `n`, left first, each with its path from the root (R135). The
first argument bounds the depth; with 255 it bounds nothing, since no path is longer than
`CODE_LEN_MAX` = 255 (R136). Beyond it, in a state no run reaches, the visit stops (log 10). -/
def visit (node : Arena) : Nat → NodeId → BitString → List (NodeId × BitString)
  | depth, n, p =>
    match node[n], depth with
    | .leaf _ _, _ => [(n, p)]
    | .internal _ _ _, 0 => []
    | .internal _ left right, depth + 1 =>
      visit node depth left (p ++ [false]) ++ visit node depth right (p ++ [true])

/-- `if root ≠ NONE then Visit(root, [])` (R135). -/
def leavesInOrder (node : Arena) (root : Option NodeId) : List (NodeId × BitString) :=
  match root with
  | none => []
  | some r => visit node 255 r []

/-- `code[s] <- Present(p)` for each visited leaf, over a table that is all Absent (R135). -/
def codesOfLeaves (node : Arena) (leaves : List (NodeId × BitString)) : Vector CodeEntry 256 :=
  leaves.foldl
    (fun code leaf =>
      match node[leaf.1] with
      | .leaf sym _ => setSymEntry code sym (.present leaf.2)
      | .internal _ _ _ => code)
    (Vector.replicate 256 .absent)

/-- `leafOrd[L] <- n; L <- L + 1` for each visited leaf (R135). -/
def storeLeafOrder : List (NodeId × BitString) → Nat → Vector NodeId 256 → Vector NodeId 256
  | [], _, ord => ord
  | leaf :: rest, i, ord =>
    storeLeafOrder rest (i + 1) (if h : i < 256 then ord.set i leaf.1 h else ord)

/-- The lengths `|code[s]|` of the present entries (R135). -/
def presentLengths (code : Vector CodeEntry 256) : List Nat :=
  allSymbols.filterMap fun sym =>
    match symEntry code sym with
    | .absent => none
    | .present bits => some bits.length

/-- `maxlen`, the largest `|code[s]|` (R135). -/
def maxLength (lengths : List Nat) : Nat := lengths.foldl max 0

/-- `minlen`, the smallest `|code[s]|` (R135); 0 for no lengths. -/
def minLength : List Nat → Nat
  | [] => 0
  | l :: rest => rest.foldl min l

/-- `Σ over leaves Leaf(s, f) of f × |code[s]|`, unbounded (R135, R137). -/
def totalBits (node : Arena) (code : Vector CodeEntry 256) (leaves : List (NodeId × BitString)) : Nat :=
  (leaves.map fun leaf =>
    match node[leaf.1] with
    | .leaf sym f => f.toNat * (symEntry code sym).length
    | .internal _ _ _ => 0).sum

/-- GENC (R135, R137). The entries of `leafOrd` past the tree's leaves take the next free values
(93_implementation_defined.md X3, log 5). -/
def execGenc (s : State) : Result :=
  if s.treeValid = false then
    reject .notReady s
  else
    let leaves := leavesInOrder s.node s.root
    let code := codesOfLeaves s.node leaves
    let lengths := presentLengths code
    complete
      { s.clearResults with
        code := code
        leafOrd := storeLeafOrder leaves 0 (freeLeafOrder s.freeCount)
        codesValid := true
        result0 :=
          if s.nleaf = 0 then 0
          else 0#16 ++ BitVec.ofNat 8 (maxLength lengths) ++ BitVec.ofNat 8 (minLength lengths)
        result1 := BitVec.ofNat 32 (totalBits s.node code leaves)
        freeCount := s.freeCount + 1 }

/-- CRD s, w: read word w of the code of symbol s (R138). -/
def execCrd (sym : Byte) (idx : Nat) (s : State) : Result :=
  if s.codesValid = false then
    reject .notReady s
  else if 7 < idx then
    reject .range s
  else
    match symEntry s.code sym with
    | .absent => complete s.clearResults
    | .present p =>
      complete
        { s.clearResults with
          result0 := codeWord p idx
          result1 := flaggedByte (BitVec.ofNat 8 p.length) }

/-- LRD i: read the i-th leaf in header order (R139). -/
def execLrd (idx : Nat) (s : State) : Result :=
  if s.codesValid = false then
    reject .notReady s
  else if s.nleaf.toNat ≤ idx then
    reject .range s
  else
    match s.node[s.leafOrd[Fin.ofNat 256 idx]] with
    | .leaf sym f => complete { s.clearResults with result0 := sym.setWidth 32, result1 := f }
    | .internal _ _ _ => .fault .brokenTree

end Sys2Proof.Machine
end

