-- ==== Sys2Proof/Machine/DecodeStream.lean ====
section
/-! DEFINITION. The decode stream: DSTART and DSYM (spec/45_decode.md R180, R182). -/

namespace Sys2Proof.Machine

/-- DSTART: reset the read side and start a decode session of TOTAL symbols (R180). -/
def execDstart (s : State) : Result :=
  if s.treeValid = false then
    reject .notReady s
  else
    complete { s.clearResults with resid := [], decRem := s.total, decActive := true, result0 := s.total }

/-- DSYM: decode one symbol by descending the tree along the available bits (R182, R185). -/
def execDsym (s : State) : Result :=
  if s.decActive = false then
    reject .notReady s
  else if s.decRem = 0 then
    reject .decDone { s with decActive := false }
  else
    match s.root with
    | none => .fault .brokenTree
    | some r =>
      match descend s.node r s.avail with
      | none =>
        if s.inEos then
          reject .truncated { s with resid := [], inq := [], decActive := false }
        else
          hold s
      | some (k, _, sym) =>
        if s.outq.length < s.outDepth then
          complete
            { (s.clearResults.consumeBits k).emit sym with
              decRem := s.decRem - 1
              result0 := sym.setWidth 32
              result1 := BitVec.ofNat 32 k }
        else
          hold s

end Sys2Proof.Machine
end

