-- ==== Sys2Proof/Machine/EncodeStream.lean ====
section
/-! DEFINITION. The encode stream: ESTART, ESYM and EFLUSH (spec/44_encode.md R165, R166, R169). -/

namespace Sys2Proof.Machine

/-- ESTART: reset the write side and start an encode session (R165). -/
def execEstart (s : State) : Result :=
  if s.codesValid = false then
    reject .notReady s
  else
    complete { s.clearResults with pend := [], encActive := true }

/-- ESYM s: push the code of symbol s (R166). -/
def execEsym (sym : Byte) (s : State) : Result :=
  if s.encActive = false then
    reject .notReady s
  else
    match symEntry s.code sym with
    | .absent => reject .noSymbol { s with encActive := false }
    | .present p =>
      let k := s.pushCount p.length
      if s.outRoom k then
        complete
          { s.clearResults.pushBits p with
            result0 := BitVec.ofNat 32 k
            result1 := BitVec.ofNat 32 p.length }
      else
        hold s

/-- EFLUSH: flush the write side and end the encode session (R169). -/
def execEflush (s : State) : Result :=
  let k := if 0 < s.pend.length then 1 else 0
  if s.outRoom k then
    complete
      { s.clearResults.flushBits with
        result0 := BitVec.ofNat 32 k
        result1 := BitVec.ofNat 32 (if k = 1 then 8 - s.pend.length else 0)
        encActive := false }
  else
    hold s

end Sys2Proof.Machine
end

