-- ==== Sys2Proof/Machine/Frequency.lean ====
section
/-! DEFINITION. The frequency table commands FCLR, FWR, FRD and FINC (spec/40_frequency.md R110 to
R113). -/

namespace Sys2Proof.Machine

/-- FCLR: every entry 0 (R110). -/
def execFclr (s : State) : Result := complete { s.clearResults with freq := Vector.replicate 256 0 }

/-- FWR s: `freq[s] <- arg` (R111). -/
def execFwr (sym : Byte) (arg : Word) (s : State) : Result :=
  complete { s.clearResults with freq := setSymEntry s.freq sym arg }

/-- FRD s: `RESULT0 <- freq[s]` (R112). -/
def execFrd (sym : Byte) (s : State) : Result :=
  complete { s.clearResults with result0 := symEntry s.freq sym }

/-- FINC s: count one occurrence; FREQ_OVF at 2^32−1, the entry unchanged (R113). -/
def execFinc (sym : Byte) (s : State) : Result :=
  if symEntry s.freq sym = 0xFFFFFFFF then
    .next ({ s.clearResults with result0 := 0xFFFFFFFF }.finish .freqOvf)
  else
    let count := symEntry s.freq sym + 1
    complete { s.clearResults with freq := setSymEntry s.freq sym count, result0 := count }

end Sys2Proof.Machine
end

