-- ==== Sys2Proof/Machine/System.lean ====
section
/-! DEFINITION. NOP, SRESET and the illegal command (spec/46_system.md R196, R199, R200). -/

namespace Sys2Proof.Machine

/-- NOP (R196). -/
def execNop (s : State) : Result := complete s.clearResults

/-- SRESET: reset all state, keep the command word in CMD, then complete with OK (R199). -/
def execSreset (s : State) : Result := complete { s.resetAll with cmd := s.currentWord }

/-- A command word whose OP is not in the table: complete with ILLEGAL and no other effect (R200). -/
def execIllegal (s : State) : Result := reject .illegal s

end Sys2Proof.Machine
end

