-- ==== Sys2Proof/Machine/Dispatch.lean ====
section
/-! DEFINITION. One arm for each command: the meaning of a command on a state. -/

namespace Sys2Proof.Machine

/-- Runs the rule of a command (46_system.md R195). -/
def exec (i : Instr) (s : State) : Host.Outcome State Fault Refusal :=
  match i with
  | .nop => Sys2Proof.Machine.execNop s
  | .sreset => Sys2Proof.Machine.execSreset s
  | .fclr => Sys2Proof.Machine.execFclr s
  | .fwr sym arg => Sys2Proof.Machine.execFwr sym arg s
  | .frd sym => Sys2Proof.Machine.execFrd sym s
  | .finc sym => Sys2Proof.Machine.execFinc sym s
  | .build => Sys2Proof.Machine.execBuild s
  | .genc => Sys2Proof.Machine.execGenc s
  | .crd sym idx => Sys2Proof.Machine.execCrd sym idx s
  | .lrd idx => Sys2Proof.Machine.execLrd idx s
  | .nrd idx => Sys2Proof.Machine.execNrd idx s
  | .estart => Sys2Proof.Machine.execEstart s
  | .esym sym => Sys2Proof.Machine.execEsym sym s
  | .eflush => Sys2Proof.Machine.execEflush s
  | .bpush idx arg => Sys2Proof.Machine.execBpush idx arg s
  | .dstart => Sys2Proof.Machine.execDstart s
  | .dsym => Sys2Proof.Machine.execDsym s
  | .bget => Sys2Proof.Machine.execBget s

end Sys2Proof.Machine
end

