-- ==== Sys2Proof/Machine/Sequencer.lean ====
section
/-! DEFINITION. The sequencer's step: running the pending command (spec/46_system.md R195, R198, R200). -/

namespace Sys2Proof.Machine

/-- The command in the latch: a command of the table or an illegal word (30_encoding.md R96, R99). -/
def execCommand (c : Command) (s : State) : Result :=
  match decode c.word c.arg with
  | .ok i => exec i s
  | .error _ => execIllegal s

/-- The sequencer's turn. With nothing pending, or while the reset input is asserted, it has no step and
the state stays (10_state.md R31, 70_reset_and_hazards.md R240, R241; log 2). -/
def sequencerTurn (s : State) : Result :=
  if s.rst then
    .next s
  else
    match s.pending with
    | none => .next s
    | some c => execCommand c s

end Sys2Proof.Machine
end

