-- ==== Sys2Proof/Machine/Step.lean ====
section
/-! DEFINITION. One step of the machine: the next turn of the schedule, or the sequencer's turn once the
schedule is used up (spec/10_state.md R30, R31; 20_memory.md R87). -/

namespace Sys2Proof.Machine

/-- Takes one turn. -/
def takeTurn (t : Turn) (s : State) : Result :=
  match t with
  | .host a => hostTurn a s
  | .sequencer => sequencerTurn s
  | .resetInput asserted => .next (resetTurn asserted s)

/-- One step: exactly one turn, atomically (10_state.md R30, R31). -/
def step (s : State) : Host.Outcome State Fault Refusal :=
  match s.schedule with
  | [] => sequencerTurn s
  | t :: rest => takeTurn t { s with schedule := rest }

/-- The state whose very next step runs the command of an opcode-table row: the latch and CMD as an
accepted CMD write leaves them (20_memory.md R77), the next turn the sequencer's, the reset input
released (log 8). -/
def State.withFetchWord (s : State) (nbits w : Nat) : State :=
  { s with
    pending := some { word := (tableWordPair nbits w).1, arg := (tableWordPair nbits w).2 }
    cmd := (tableWordPair nbits w).1
    rst := false
    schedule := .sequencer :: s.schedule }

end Sys2Proof.Machine
end

