-- ==== Sys2Proof/Safety.lean ====
section
/-! DEFINITION. The terms claims are stated in: what a completed command may change, the tables of causes
and of holds, the machine's invariants, and the bit streams of the two sessions. -/

namespace Sys2Proof.Machine

/-! ### Completion and frames -/

/-- `s` with the fields that every completed command may write taken from `t`: CC, DONE, ERR, FIRST_ERR,
the latch, RESULT0 and RESULT1 (46_system.md R195, R197). `t = s.withCompletionOf t` says that nothing
else changed. -/
def State.withCompletionOf (s t : State) : State :=
  { s with
    cc := t.cc
    done := t.done
    err := t.err
    firstErr := t.firstErr
    pending := t.pending
    result0 := t.result0
    result1 := t.result1 }

/-- What `finish(cc)` does to STATUS and the latch, from `s` before the command to `t` after it
(46_system.md R197, 60_exceptions.md R219). -/
structure Completes (code : CompletionCode) (s t : State) : Prop where
  cc : t.cc = code
  done : t.done = true
  idle : t.pending = none
  err : t.err = (s.err || decide (code ≠ .ok))
  firstErr : t.firstErr = if s.err = false ∧ code ≠ .ok then code else s.firstErr

/-- The values of 10_state.md R61, but for STATUS.DONE and CMD, which SRESET leaves otherwise, and for the
tables R61 leaves unspecified. -/
structure ResetValues (t : State) : Prop where
  ctrl : t.ieDone = false ∧ t.ieErr = false ∧ t.ieOvr = false ∧ t.inEos = false
  sticky : t.err = false ∧ t.cmdOvr = false ∧ t.inOvr = false
  valid : t.treeValid = false ∧ t.codesValid = false ∧ t.treeEmpty = false ∧ t.treeSingle = false
  sessions : t.encActive = false ∧ t.decActive = false
  codes : t.cc = .ok ∧ t.firstErr = .ok
  operands : t.arg = 0 ∧ t.result0 = 0 ∧ t.result1 = 0
  counts : t.total = 0 ∧ t.decRem = 0 ∧ t.nleaf = 0
  latch : t.pending = none
  table : ∀ sym, symEntry t.freq sym = 0
  root : t.root = none
  bits : t.pend = [] ∧ t.resid = []
  fifos : t.inq = [] ∧ t.outq = []

/-- Commands run one after the other, each to its completion (30_encoding.md R108). -/
def execAll : List Instr → State → Result
  | [], s => .next s
  | i :: rest, s =>
    match exec i s with
    | .next t => execAll rest t
    | .fault f => .fault f
    | .refused r => .refused r

/-! ### The tables of causes and of holds -/

/-- The sum of all 256 entries of the frequency table, unbounded. -/
def freqTotal (freq : Vector Word 256) : Nat := (allSymbols.map fun sym => (symEntry freq sym).toNat).sum

/-- The number of present symbols: entries that are not 0 (00_scope.md R20). -/
def alphabetSize (freq : Vector Word 256) : Nat := allSymbols.countP fun sym => symEntry freq sym ≠ 0

/-- Whether the available bits reach a leaf from the root (45_decode.md R181, R182). -/
def reachesLeaf (s : State) : Bool :=
  match s.root with
  | none => false
  | some r => (descend s.node r s.avail).isSome

/-- The code with which a command that is not held completes: the table of 60_exceptions.md R212 in the
order of R214. -/
def completionCode (i : Instr) (s : State) : CompletionCode :=
  match i with
  | .nop | .sreset | .fclr | .fwr _ _ | .frd _ | .eflush => .ok
  | .finc sym => if (symEntry s.freq sym).toNat = 2 ^ 32 - 1 then .freqOvf else .ok
  | .build => if 2 ^ 32 - 1 < freqTotal s.freq then .totalOvf else .ok
  | .genc | .dstart => if s.treeValid then .ok else .notReady
  | .estart => if s.codesValid then .ok else .notReady
  | .crd _ w => if !s.codesValid then .notReady else if 7 < w then .range else .ok
  | .lrd j => if !s.codesValid then .notReady else if s.nleaf.toNat ≤ j then .range else .ok
  | .nrd n =>
    if !s.treeValid then .notReady
    else if s.nleaf.toNat = 0 ∨ 2 * s.nleaf.toNat - 2 < n then .range
    else .ok
  | .esym sym =>
    if !s.encActive then .notReady
    else if symEntry s.code sym = .absent then .noSymbol
    else .ok
  | .bpush n _ => if 32 < n then .range else .ok
  | .dsym =>
    if !s.decActive then .notReady
    else if s.decRem = 0 then .decDone
    else if !reachesLeaf s && s.inEos then .truncated
    else .ok
  | .bget => if s.resid = [] ∧ s.inq = [] ∧ s.inEos = true then .truncated else .ok

/-- The free slots of the OUT FIFO are fewer than k (46_system.md R198). -/
def lacksRoom (s : State) (k : Nat) : Bool := decide (s.outDepth - s.outq.length < k)

/-- Whether a command holds: the table of 46_system.md R198, where the command's error checks have
passed (60_exceptions.md R214). DSYM never descends from no root (45_decode.md R181). -/
def holds (i : Instr) (s : State) : Bool :=
  match i with
  | .bpush n _ => decide (n ≤ 32) && lacksRoom s ((s.pend.length + n) / 8)
  | .bget => s.resid.isEmpty && s.inq.isEmpty && !s.inEos
  | .esym sym =>
    s.encActive &&
      match symEntry s.code sym with
      | .absent => false
      | .present p => lacksRoom s ((s.pend.length + p.length) / 8)
  | .eflush => decide (0 < s.pend.length) && lacksRoom s 1
  | .dsym =>
    s.decActive && s.decRem != 0 && s.root.isSome &&
      ((!reachesLeaf s && !s.inEos) || (reachesLeaf s && lacksRoom s 1))
  | .nop | .sreset | .fclr | .fwr _ _ | .frd _ | .finc _ | .build | .genc | .crd _ _ | .lrd _
  | .nrd _ | .estart | .dstart => false

/-! ### Registers -/

/-- `w` holds the fields of CTRL of `s` as they read (10_state.md R34; 20_memory.md R75). -/
structure CtrlFields (w : Word) (s : State) : Prop where
  ieDone : w.getLsbD 0 = s.ieDone
  ieErr : w.getLsbD 1 = s.ieErr
  ieOvr : w.getLsbD 2 = s.ieOvr
  inEos : w.getLsbD 3 = s.inEos
  zeros : w.extractLsb' 4 28 = 0

/-- `w` holds the fields of STATUS of `s` (10_state.md R35; 60_exceptions.md R211). -/
structure StatusFields (w : Word) (s : State) : Prop where
  busy : w.getLsbD 0 = s.pending.isSome
  done : w.getLsbD 1 = s.done
  err : w.getLsbD 2 = s.err
  cmdOvr : w.getLsbD 3 = s.cmdOvr
  inOvr : w.getLsbD 4 = s.inOvr
  treeValid : w.getLsbD 5 = s.treeValid
  codesValid : w.getLsbD 6 = s.codesValid
  encActive : w.getLsbD 7 = s.encActive
  decActive : w.getLsbD 8 = s.decActive
  treeEmpty : w.getLsbD 9 = s.treeEmpty
  treeSingle : w.getLsbD 10 = s.treeSingle
  reserved11 : w.getLsbD 11 = false
  cc : w.extractLsb' 12 4 = s.cc.bits
  wpend : (w.extractLsb' 16 4).toNat = s.pend.length
  rres : (w.extractLsb' 20 4).toNat = s.resid.length
  firstErr : w.extractLsb' 24 4 = s.firstErr.bits
  reserved28 : w.extractLsb' 28 4 = 0

/-! ### Encoding -/

/-- The 18 defined OP values (30_encoding.md R98). -/
def definedOps : List Nat :=
  [0x00, 0x01, 0x10, 0x11, 0x12, 0x13, 0x20, 0x21, 0x22, 0x23, 0x24, 0x30, 0x31, 0x32, 0x33, 0x40, 0x41,
    0x42]

/-- The OP values whose commands use SYM: FWR, FRD, FINC, CRD and ESYM (30_encoding.md R98, R101). -/
def opsUsingSym : List Nat := [0x11, 0x12, 0x13, 0x22, 0x31]

/-- The OP values whose commands use IDX: CRD, LRD, NRD and BPUSH (30_encoding.md R98, R104). -/
def opsUsingIdx : List Nat := [0x22, 0x23, 0x24, 0x33]

/-- The OP values whose commands use ARG: FWR and BPUSH (30_encoding.md R98, R102). -/
def opsUsingArg : List Nat := [0x11, 0x33]

/-- The command word with every field its command does not use set to 0 (30_encoding.md R95, R97). -/
def clearUnused (word : Word) : Word :=
  word.extractLsb' 24 8
    ++ (if (opField word).toNat ∈ opsUsingSym then word.extractLsb' 16 8 else 0)
    ++ (if (opField word).toNat ∈ opsUsingIdx then word.extractLsb' 0 16 else 0)

/-- The latched ARG, set to 0 where the word's command does not use it (30_encoding.md R97, R102). -/
def clearUnusedArg (word arg : Word) : Word := if (opField word).toNat ∈ opsUsingArg then arg else 0

/-! ### Invariants -/

/-- The STATUS invariants of 10_state.md R36. -/
structure StatusInv (s : State) : Prop where
  codes_tree : s.codesValid = true → s.treeValid = true
  enc_codes : s.encActive = true → s.codesValid = true
  dec_tree : s.decActive = true → s.treeValid = true
  empty_tree : s.treeEmpty = true → s.treeValid = true
  single_tree : s.treeSingle = true → s.treeValid = true
  not_both : ¬ (s.treeEmpty = true ∧ s.treeSingle = true)
  err_first : s.err = false ↔ s.firstErr = .ok
  wpend : s.pend.length ≤ 7
  rres : s.resid.length ≤ 8

/-- The FIFOs hold at most their depth, and the depths lie in 32..65535 (00_scope.md R6;
10_state.md R57, R58). -/
structure FifoInv (s : State) : Prop where
  inq : s.inq.length ≤ s.inDepth
  outq : s.outq.length ≤ s.outDepth
  inDepth : 32 ≤ s.inDepth ∧ s.inDepth ≤ 65535
  outDepth : 32 ≤ s.outDepth ∧ s.outDepth ≤ 65535

/-- What TOTAL, DEC_REM, NLEAF, root, CMD and the latch say of one another (10_state.md R37, R44 to R46,
R49, R52; 70_reset_and_hazards.md R240). -/
structure RegisterInv (s : State) : Prop where
  no_tree : s.treeValid = false → s.total = 0 ∧ s.nleaf = 0 ∧ s.decRem = 0 ∧ s.root = none
  leaves : s.nleaf.toNat ≤ 256
  empty : s.treeEmpty = true ↔ s.treeValid = true ∧ s.nleaf = 0
  single : s.treeSingle = true ↔ s.treeValid = true ∧ s.nleaf = 1
  no_root : s.root = none → s.total = 0
  rem : s.decRem.toNat ≤ s.total.toNat
  cmd : ∀ c, s.pending = some c → s.cmd = c.word
  rst : s.rst = true → s.pending = none

/-- A leaf whose frequency is at least 1. -/
def Node.isLiveLeaf : Node → Bool
  | .leaf _ f => f != 0
  | .internal _ _ _ => false

/-- The symbol of a leaf; an internal node has none, read as 0. -/
def Node.symbol : Node → Byte
  | .leaf sym _ => sym
  | .internal _ _ _ => 0

/-- Node `c` is a child of this node. -/
def Node.hasChild (c : NodeId) : Node → Bool
  | .leaf _ _ => false
  | .internal _ left right => left == c || right == c

/-- The key of node `a` is below the key of node `b`: a lower frequency, or the same frequency and a lower
id (41_tree_builder.md R121). -/
def keyBelow (node : Arena) (a b : NodeId) : Prop :=
  node[a].freq.toNat < node[b].freq.toNat ∨ (node[a].freq.toNat = node[b].freq.toNat ∧ a < b)

/-- Node `i` is an internal node with two different children of lower ids and their summed frequency. -/
def isMergeNode (node : Arena) (i : NodeId) : Bool :=
  match node[i] with
  | .leaf _ _ => false
  | .internal f left right =>
    decide (left < i) && decide (right < i) && decide (left ≠ right)
      && decide (f.toNat = node[left].freq.toNat + node[right].freq.toNat)

/-- The tree invariants for `n` leaves (41_tree_builder.md R122, R124, R125): nodes 0..n−1 are the leaves
in ascending symbol order, nodes n..2n−2 are merges of lower nodes, every node but the root has exactly
one parent, and the root is node 2n−2, or NONE for n = 0. -/
structure TreeShape (node : Arena) (n : Nat) (root : Option NodeId) : Prop where
  count : n ≤ 256
  root_eq : root = if n = 0 then none else some (nodeIdOf (2 * n - 2))
  leaves : ∀ i : NodeId, i.val < n → node[i].isLiveLeaf = true
  ascending : ∀ i j : NodeId, i < j → j.val < n → node[i].symbol < node[j].symbol
  merges : ∀ i : NodeId, n ≤ i.val → i.val < 2 * n - 1 → isMergeNode node i = true
  parent : ∀ c : NodeId, c.val < 2 * n - 2 →
    ∃ i : NodeId, i.val < 2 * n - 1 ∧ node[i].hasChild c = true ∧
      ∀ j : NodeId, j.val < 2 * n - 1 → node[j].hasChild c = true → j = i

/-- A valid tree has the shape of R125, and its root's frequency is TOTAL (41_tree_builder.md R125,
10_state.md R44). -/
def TreeInv (s : State) : Prop :=
  s.treeValid = true →
    TreeShape s.node s.nleaf.toNat s.root ∧ ∀ r, s.root = some r → s.node[r].freq = s.total

/-- With a valid code table the first N entries of the leaf order table name leaves of the tree, which
are nodes 0..N−1 (10_state.md R54; 41_tree_builder.md R122; 42_code_table.md R139). -/
def LeafOrderInv (s : State) : Prop :=
  s.codesValid = true → ∀ i : Fin 256, i.val < s.nleaf.toNat →
    s.leafOrd[i].val < s.nleaf.toNat ∧ s.node[s.leafOrd[i]].isLiveLeaf = true

/-- Each code of the table is the path to its symbol's leaf in the tree of `s`: descending along it uses
exactly its bits, whatever follows (42_code_table.md R135, R140; 45_decode.md R181). -/
def CodesDescend (code : Vector CodeEntry 256) (s : State) : Prop :=
  ∀ sym p, symEntry code sym = .present p → ∀ rest,
    ∃ r n, s.root = some r ∧ descend s.node r (p ++ rest) = some (p.length, n, sym)

/-- A valid code table is one whose codes lead to their symbols' leaves. -/
def CodesInv (s : State) : Prop := s.codesValid = true → CodesDescend s.code s

/-! ### Bit streams -/

/-- The path `p` leads further left than `q`: they part where `p` goes left and `q` right. -/
def isLeftOf (p q : BitString) : Prop :=
  ∃ c p' q', p = c ++ false :: p' ∧ q = c ++ true :: q'

/-- The bits written so far that have not left the block: the OUT FIFO's bytes and the pending bits. -/
def State.writtenBits (s : State) : BitString := s.outq.flatMap bitsOfByte ++ s.pend

/-- The code of a symbol, [] where it has none. -/
def codeOf (code : Vector CodeEntry 256) (sym : Byte) : BitString :=
  match symEntry code sym with
  | .absent => []
  | .present p => p

/-- `code[m[0]] ++ … ++ code[m[L−1]]`, the body of a message (44_encode.md R171). -/
def bodyBits (code : Vector CodeEntry 256) (m : List Byte) : BitString := m.flatMap (codeOf code)

/-- Every symbol of a message has a code. -/
def allPresent (code : Vector CodeEntry 256) (m : List Byte) : Prop :=
  ∀ sym ∈ m, symEntry code sym ≠ .absent

end Sys2Proof.Machine
end

