-- ==== Sys2Proof/Certificates/Slice0/Obligations.lean ====
section
/-! DEFINITION. The statements about the model, for the provers. Each docstring names the rule of spec/ it
formalises. `t = { s.withCompletionOf t with f := t.f }` is a frame: nothing but the completion fields
(46_system.md R197, RESULT0 and RESULT1 of R195) and the named fields changed. -/

open Sys2Proof Sys2Proof.Machine

/-! ### System commands -/

/-- NOP completes with OK, results 0, and changes nothing else (46_system.md R196). -/
def Obligations.NopOnlyCompletes : Prop :=
  ∀ s : State, ∃ t, exec .nop s = .next t ∧ Completes .ok s t ∧ t.result0 = 0 ∧ t.result1 = 0
    ∧ t = s.withCompletionOf t

/-- SRESET sets every piece of state to its reset value, keeps its word in CMD, and completes with DONE
(46_system.md R199). What is outside the block stays: the depths of the instance, and the model's own
schedule (log 1), last read (log 9) and level of the reset input (log 13). -/
def Obligations.SresetRestoresResetValues : Prop :=
  ∀ (s : State) (c : Command), s.pending = some c →
    ∃ t, exec .sreset s = .next t ∧ ResetValues t ∧ t.done = true ∧ t.cmd = c.word
      ∧ t.statusWord = 0x00000002
      ∧ t.inDepth = s.inDepth ∧ t.outDepth = s.outDepth ∧ t.rst = s.rst
      ∧ t.schedule = s.schedule ∧ t.readLanes = s.readLanes

/-- A pending word whose OP is not in the opcode map completes with ILLEGAL, results 0, and no other
effect (46_system.md R200, 30_encoding.md R99). -/
def Obligations.IllegalCommandsReportIllegal : Prop :=
  ∀ (s : State) (c : Command), s.rst = false → s.pending = some c →
    (opField c.word).toNat ∉ definedOps →
    ∃ t, sequencerTurn s = .next t ∧ Completes .illegal s t ∧ t.result0 = 0 ∧ t.result1 = 0
      ∧ t = s.withCompletionOf t

/-! ### The frequency table -/

/-- FCLR clears every entry and changes nothing else (40_frequency.md R110). -/
def Obligations.FclrClearsEveryEntry : Prop :=
  ∀ s : State, ∃ t, exec .fclr s = .next t ∧ Completes .ok s t
    ∧ (∀ sym, symEntry t.freq sym = 0) ∧ t.result0 = 0 ∧ t.result1 = 0
    ∧ t = { s.withCompletionOf t with freq := t.freq }

/-- FWR writes ARG to one entry, whatever the value, and changes no other entry and nothing else
(40_frequency.md R111). -/
def Obligations.FwrWritesOneEntry : Prop :=
  ∀ (sym : Byte) (arg : Word) (s : State), ∃ t, exec (.fwr sym arg) s = .next t ∧ Completes .ok s t
    ∧ symEntry t.freq sym = arg ∧ (∀ other, other ≠ sym → symEntry t.freq other = symEntry s.freq other)
    ∧ t.result0 = 0 ∧ t.result1 = 0
    ∧ t = { s.withCompletionOf t with freq := t.freq }

/-- FRD reads one entry into RESULT0 and changes nothing else (40_frequency.md R112). -/
def Obligations.FrdReadsOneEntry : Prop :=
  ∀ (sym : Byte) (s : State), ∃ t, exec (.frd sym) s = .next t ∧ Completes .ok s t
    ∧ t.result0 = symEntry s.freq sym ∧ t.result1 = 0 ∧ t = s.withCompletionOf t

/-- FINC below 2^32−1 adds one to one entry and returns the new count; at 2^32−1 it completes with
FREQ_OVF, the entry neither wrapped nor changed (40_frequency.md R113). -/
def Obligations.FincCountsOrReportsOverflow : Prop :=
  ∀ (sym : Byte) (s : State),
    ((symEntry s.freq sym).toNat < 2 ^ 32 - 1 →
      ∃ t, exec (.finc sym) s = .next t ∧ Completes .ok s t
        ∧ (symEntry t.freq sym).toNat = (symEntry s.freq sym).toNat + 1
        ∧ (∀ other, other ≠ sym → symEntry t.freq other = symEntry s.freq other)
        ∧ t.result0 = symEntry t.freq sym ∧ t.result1 = 0
        ∧ t = { s.withCompletionOf t with freq := t.freq })
    ∧ ((symEntry s.freq sym).toNat = 2 ^ 32 - 1 →
      ∃ t, exec (.finc sym) s = .next t ∧ Completes .freqOvf s t
        ∧ t.result0 = 0xFFFFFFFF ∧ t.result1 = 0 ∧ t = s.withCompletionOf t)

/-- Clearing the table and counting each byte of a sequence leaves in each entry the number of the
byte's occurrences (40_frequency.md R115). -/
def Obligations.FrequencyScanCountsOccurrences : Prop :=
  ∀ (m : List Byte) (s : State), (∀ sym, m.count sym < 2 ^ 32) →
    ∃ t, execAll (.fclr :: m.map .finc) s = .next t
      ∧ (∀ sym, (symEntry t.freq sym).toNat = m.count sym)
      ∧ t = { s.withCompletionOf t with freq := t.freq }

/-! ### The tree builder -/

/-- BUILD with a sum that fits 32 bits completes with OK, publishes the tree's flags and counts, and ends
both sessions; RESULT0 is N and RESULT1 the sum (41_tree_builder.md R120). `freeCount` is the model's own
field (log 5, log 6). -/
def Obligations.BuildPublishesTheTree : Prop :=
  ∀ s : State, freqTotal s.freq ≤ 2 ^ 32 - 1 →
    ∃ t, exec .build s = .next t ∧ Completes .ok s t
      ∧ t.treeValid = true ∧ t.codesValid = false ∧ t.encActive = false ∧ t.decActive = false
      ∧ t.treeEmpty = decide (alphabetSize s.freq = 0) ∧ t.treeSingle = decide (alphabetSize s.freq = 1)
      ∧ t.total.toNat = freqTotal s.freq ∧ t.nleaf.toNat = alphabetSize s.freq ∧ t.decRem = 0
      ∧ t.result0.toNat = alphabetSize s.freq ∧ t.result1 = t.total
      ∧ t = { s.withCompletionOf t with
          treeValid := t.treeValid, codesValid := t.codesValid, encActive := t.encActive
          decActive := t.decActive, treeEmpty := t.treeEmpty, treeSingle := t.treeSingle
          total := t.total, nleaf := t.nleaf, decRem := t.decRem, root := t.root, node := t.node
          freeCount := t.freeCount }

/-- BUILD with a sum above 2^32−1 completes with TOTAL_OVF and leaves no valid tree
(41_tree_builder.md R120, R128). -/
def Obligations.BuildOverflowLeavesNoTree : Prop :=
  ∀ s : State, 2 ^ 32 - 1 < freqTotal s.freq →
    ∃ t, exec .build s = .next t ∧ Completes .totalOvf s t
      ∧ t.treeValid = false ∧ t.codesValid = false ∧ t.treeEmpty = false ∧ t.treeSingle = false
      ∧ t.encActive = false ∧ t.decActive = false
      ∧ t.total = 0 ∧ t.nleaf = 0 ∧ t.decRem = 0 ∧ t.root = none ∧ t.result0 = 0 ∧ t.result1 = 0
      ∧ t = { s.withCompletionOf t with
          treeValid := false, codesValid := false, encActive := false, decActive := false
          treeEmpty := false, treeSingle := false, total := 0, nleaf := 0, decRem := 0, root := none }

/-- After a successful BUILD the leaves are nodes 0..N−1, node i holding the i-th present symbol in
ascending order with its frequency; every merge node sums its two lower children; every node but the
root has exactly one parent; the root is node 2N−2 and its frequency is TOTAL
(41_tree_builder.md R122, R124, R125). -/
def Obligations.BuiltTreeHasTheShape : Prop :=
  ∀ s t : State, freqTotal s.freq ≤ 2 ^ 32 - 1 → exec .build s = .next t →
    TreeShape t.node (alphabetSize s.freq) t.root
      ∧ (∀ (i : NodeId) (sym : Byte),
          (allSymbols.filter fun sym => symEntry s.freq sym ≠ 0)[i.val]? = some sym →
          t.node[i] = .leaf sym (symEntry s.freq sym))
      ∧ (∀ r, t.root = some r → t.node[r].freq = t.total)

/-- Every merge takes the two least keys of the queue, the lower one as the left child: the left key is
below the right key, and the right key is below the key of every other node made before the merge that
no earlier merge took. Keys order by frequency and then by id (41_tree_builder.md R120, R121, R123). -/
def Obligations.BuildPutsTheLowerKeyLeft : Prop :=
  ∀ (s t : State) (i : NodeId) (f : Word) (left right : NodeId), freqTotal s.freq ≤ 2 ^ 32 - 1 →
    exec .build s = .next t → i.val < 2 * alphabetSize s.freq - 1 →
    t.node[i] = .internal f left right →
    keyBelow t.node left right
    ∧ ∀ c : NodeId, c < i → c ≠ left → c ≠ right → (∀ j : NodeId, j < i → t.node[j].hasChild c = false) →
        keyBelow t.node right c

/-- BUILD is a function of the frequency table alone: two states with equal tables get the same root, the
same counts and the same nodes 0..2N−2 (41_tree_builder.md R126). -/
def Obligations.BuildDependsOnFrequenciesAlone : Prop :=
  ∀ s1 s2 t1 t2 : State, s1.freq = s2.freq → exec .build s1 = .next t1 → exec .build s2 = .next t2 →
    t1.root = t2.root ∧ t1.total = t2.total ∧ t1.nleaf = t2.nleaf ∧ t1.treeValid = t2.treeValid
      ∧ t1.treeEmpty = t2.treeEmpty ∧ t1.treeSingle = t2.treeSingle ∧ t1.cc = t2.cc
      ∧ (t1.treeValid = true → ∀ i : NodeId, i.val < 2 * t1.nleaf.toNat - 1 → t1.node[i] = t2.node[i])

/-- NRD of a node id in range returns its kind, children or symbol, and frequency
(41_tree_builder.md R127). -/
def Obligations.NrdReadsOneNode : Prop :=
  ∀ (n : NodeId) (s : State), s.treeValid = true → s.nleaf.toNat ≠ 0 → n.val ≤ 2 * s.nleaf.toNat - 2 →
    ∃ t, exec (.nrd n.val) s = .next t ∧ Completes .ok s t
      ∧ t.result1 = s.node[n].freq
      ∧ (∀ sym f, s.node[n] = .leaf sym f → t.result0.toNat = sym.toNat)
      ∧ (∀ f left right, s.node[n] = .internal f left right →
          t.result0.toNat = 2 ^ 31 + left.val * 2 ^ 22 + right.val * 2 ^ 13)
      ∧ t = s.withCompletionOf t

/-! ### The code table -/

/-- GENC with a valid tree completes with OK and a valid code table, and leaves the tree, the sessions and
the bit buffer as they are (42_code_table.md R135). `freeCount` is the model's own field (log 5, log 6). -/
def Obligations.GencPublishesTheCodes : Prop :=
  ∀ s : State, s.treeValid = true →
    ∃ t, exec .genc s = .next t ∧ Completes .ok s t ∧ t.codesValid = true
      ∧ t = { s.withCompletionOf t with
          codesValid := true, code := t.code, leafOrd := t.leafOrd, freeCount := t.freeCount }

/-- After GENC each present code leads from the root to a leaf of its symbol and uses exactly its bits,
and with a tree of the shape of R125 every leaf's symbol has a code (42_code_table.md R135). -/
def Obligations.GencCodesReachTheirLeaves : Prop :=
  ∀ s t : State, s.treeValid = true → exec .genc s = .next t →
    CodesInv t ∧
      (TreeShape s.node s.nleaf.toNat s.root →
        ∀ i : NodeId, i.val < s.nleaf.toNat → symEntry t.code s.node[i].symbol ≠ .absent)

/-- After GENC no code of a present symbol is a prefix of another's (42_code_table.md R140). -/
def Obligations.GencCodesArePrefixFree : Prop :=
  ∀ (s t : State) (a b : Byte) (p q : BitString), s.treeValid = true → exec .genc s = .next t →
    a ≠ b → symEntry t.code a = .present p → symEntry t.code b = .present q → ¬ p <+: q

/-- With N ≥ 2 leaves every code has length 1..N−1, and with N = 1 the code has length 0
(42_code_table.md R136). -/
def Obligations.GencCodeLengthsAreBounded : Prop :=
  ∀ (s t : State) (sym : Byte) (p : BitString), s.treeValid = true →
    TreeShape s.node s.nleaf.toNat s.root → exec .genc s = .next t → symEntry t.code sym = .present p →
    (2 ≤ s.nleaf.toNat → 1 ≤ p.length ∧ p.length ≤ s.nleaf.toNat - 1) ∧ (s.nleaf.toNat = 1 → p.length = 0)

/-- RESULT0 of GENC is 0 for the empty tree; otherwise its bits [7:0] are the shortest and its bits [15:8]
the longest code length, both attained, and its bits [31:16] are 0 (42_code_table.md R135, R137). -/
def Obligations.GencReportsTheLengths : Prop :=
  ∀ s t : State, s.treeValid = true → exec .genc s = .next t →
    (s.nleaf = 0 → t.result0 = 0)
    ∧ (∀ sym p, s.nleaf ≠ 0 → symEntry t.code sym = .present p →
        (t.result0.extractLsb' 0 8).toNat ≤ p.length ∧ p.length ≤ (t.result0.extractLsb' 8 8).toNat
        ∧ t.result0.extractLsb' 16 16 = 0
        ∧ (∃ a q, symEntry t.code a = .present q ∧ q.length = (t.result0.extractLsb' 0 8).toNat)
        ∧ (∃ a q, symEntry t.code a = .present q ∧ q.length = (t.result0.extractLsb' 8 8).toNat))

/-- CRD of a present symbol: code bit `32·w + j` stands at RESULT0 bit `31 − j`, bits past the end read 0,
and RESULT1 is PRESENT with the length; of an absent symbol it is no error, and both results are 0
(42_code_table.md R138). Lengths are at most 255 (10_state.md R53). -/
def Obligations.CrdReadsOneCodeWord : Prop :=
  ∀ (sym : Byte) (w : Nat) (s : State), s.codesValid = true → w ≤ 7 →
    (symEntry s.code sym).length ≤ 255 →
    ∃ t, exec (.crd sym w) s = .next t ∧ Completes .ok s t
      ∧ (symEntry s.code sym = .absent → t.result0 = 0 ∧ t.result1 = 0)
      ∧ (∀ p, symEntry s.code sym = .present p →
          (∀ j, j < 32 → t.result0.getLsbD (31 - j) = p.getD (32 * w + j) false)
          ∧ t.result1.toNat = 256 + p.length)
      ∧ t = s.withCompletionOf t

/-- LRD of an index below NLEAF returns the symbol and the frequency of that leaf
(42_code_table.md R139). -/
def Obligations.LrdReadsOneLeaf : Prop :=
  ∀ (i : Fin 256) (sym : Byte) (f : Word) (s : State), s.codesValid = true → i.val < s.nleaf.toNat →
    s.node[s.leafOrd[i]] = .leaf sym f →
    ∃ t, exec (.lrd i.val) s = .next t ∧ Completes .ok s t
      ∧ t.result0.toNat = sym.toNat ∧ t.result1 = f ∧ t = s.withCompletionOf t

/-- After GENC entry i of the leaf order table is the i-th leaf of the left-first traversal: each of the
first N entries names a leaf of the tree, nodes 0..N−1, and of two such entries the earlier names the
leaf further left (10_state.md R54, 41_tree_builder.md R122, 42_code_table.md R135, R139). -/
def Obligations.GencListsTheLeavesLeftFirst : Prop :=
  ∀ s t : State, s.treeValid = true → TreeShape s.node s.nleaf.toNat s.root → exec .genc s = .next t →
    (∀ i : Fin 256, i.val < s.nleaf.toNat → t.leafOrd[i].val < s.nleaf.toNat)
    ∧ ∀ i j : Fin 256, i < j → j.val < s.nleaf.toNat →
      ∃ a b f g p q, t.node[t.leafOrd[i]] = .leaf a f ∧ t.node[t.leafOrd[j]] = .leaf b g
        ∧ symEntry t.code a = .present p ∧ symEntry t.code b = .present q ∧ isLeftOf p q

/-- RESULT1 of GENC is the total bit length of the message the tree was built from, the sum of frequency
times code length over the leaves, modulo 2^32 (42_code_table.md R135, R137). -/
def Obligations.GencReportsTheTotalBits : Prop :=
  ∀ s t : State, s.treeValid = true → TreeShape s.node s.nleaf.toNat s.root → exec .genc s = .next t →
    t.result1.toNat =
      ((List.range s.nleaf.toNat).map fun i =>
        s.node[nodeIdOf i].freq.toNat * (symEntry t.code s.node[nodeIdOf i].symbol).length).sum % 2 ^ 32

/-! ### The bit buffer and the encode stream -/

/-- BPUSH n with n ≤ 32 and room for its bytes appends the n most significant bits of ARG to the written
bits, none lost and the OUT FIFO's bytes untouched; RESULT0 is the number of bytes emitted and RESULT1 is
n (43_bit_buffer.md R157). -/
def Obligations.BpushPushesArgBits : Prop :=
  ∀ (n : Nat) (arg : Word) (s : State), n ≤ 32 → s.pend.length ≤ 7 →
    (s.pend.length + n) / 8 ≤ s.outDepth - s.outq.length →
    ∃ t, exec (.bpush n arg) s = .next t ∧ Completes .ok s t
      ∧ t.writtenBits = s.writtenBits ++ (List.range n).map (fun j => arg.getLsbD (31 - j))
      ∧ s.outq <+: t.outq ∧ t.outq.length = s.outq.length + (s.pend.length + n) / 8
      ∧ t.pend.length = (s.pend.length + n) % 8
      ∧ t.result0 = BitVec.ofNat 32 ((s.pend.length + n) / 8) ∧ t.result1 = BitVec.ofNat 32 n
      ∧ t = { s.withCompletionOf t with pend := t.pend, outq := t.outq }

/-- ESTART with a valid code table discards the pending bits and starts a session (44_encode.md R165). -/
def Obligations.EstartStartsASession : Prop :=
  ∀ s : State, s.codesValid = true →
    ∃ t, exec .estart s = .next t ∧ Completes .ok s t ∧ t.result0 = 0 ∧ t.result1 = 0
      ∧ t = { s.withCompletionOf t with pend := [], encActive := true }

/-- ESYM of a present symbol in a session with room appends exactly its code to the written bits; RESULT0
is the number of bytes emitted and RESULT1 the code's length (44_encode.md R166). -/
def Obligations.EsymPushesTheCode : Prop :=
  ∀ (sym : Byte) (p : BitString) (s : State), s.encActive = true → symEntry s.code sym = .present p →
    s.pend.length ≤ 7 → (s.pend.length + p.length) / 8 ≤ s.outDepth - s.outq.length →
    ∃ t, exec (.esym sym) s = .next t ∧ Completes .ok s t
      ∧ t.writtenBits = s.writtenBits ++ p
      ∧ s.outq <+: t.outq ∧ t.outq.length = s.outq.length + (s.pend.length + p.length) / 8
      ∧ t.pend.length = (s.pend.length + p.length) % 8
      ∧ t.result0 = BitVec.ofNat 32 ((s.pend.length + p.length) / 8)
      ∧ t.result1 = BitVec.ofNat 32 p.length
      ∧ t = { s.withCompletionOf t with pend := t.pend, outq := t.outq }

/-- ESYM of a symbol with no code completes with NO_SYMBOL and abandons the session
(44_encode.md R166, 60_exceptions.md R215). -/
def Obligations.EsymOfAnAbsentSymbolAbandons : Prop :=
  ∀ (sym : Byte) (s : State), s.encActive = true → symEntry s.code sym = .absent →
    ∃ t, exec (.esym sym) s = .next t ∧ Completes .noSymbol s t ∧ t.result0 = 0 ∧ t.result1 = 0
      ∧ t = { s.withCompletionOf t with encActive := false }

/-- EFLUSH with room pads the pending bits with zeros to one byte, or emits nothing where none are
pending, and ends the session; RESULT0 is the number of bytes and RESULT1 the pad bits
(44_encode.md R169). -/
def Obligations.EflushPadsTheLastByte : Prop :=
  ∀ s : State, s.pend.length ≤ 7 → (s.pend ≠ [] → 1 ≤ s.outDepth - s.outq.length) →
    ∃ t, exec .eflush s = .next t ∧ Completes .ok s t
      ∧ (s.pend = [] → t.outq = s.outq ∧ t.result0 = 0 ∧ t.result1 = 0)
      ∧ (s.pend ≠ [] →
          t.writtenBits = s.writtenBits ++ List.replicate (8 - s.pend.length) false
          ∧ t.outq.length = s.outq.length + 1 ∧ s.outq <+: t.outq
          ∧ t.result0 = 1 ∧ t.result1.toNat = 8 - s.pend.length)
      ∧ t = { s.withCompletionOf t with pend := [], encActive := false, outq := t.outq }

/-- The ESYMs of a message, run in a session in which every symbol has a code and the OUT FIFO has room
for the body, write exactly the concatenation of its codes (44_encode.md R170, R171). -/
def Obligations.EncodedMessageIsItsCodes : Prop :=
  ∀ (m : List Byte) (s : State), s.encActive = true → s.pend.length ≤ 7 → allPresent s.code m →
    (s.pend.length + (bodyBits s.code m).length) / 8 ≤ s.outDepth - s.outq.length →
    ∃ t, execAll (m.map .esym) s = .next t ∧ t.writtenBits = s.writtenBits ++ bodyBits s.code m
      ∧ s.outq <+: t.outq ∧ t.pend.length ≤ 7
      ∧ t = { s.withCompletionOf t with pend := t.pend, outq := t.outq }

/-! ### The decode stream -/

/-- DSTART with a valid tree discards the residual bits and loads DEC_REM with TOTAL
(45_decode.md R180). -/
def Obligations.DstartLoadsTotal : Prop :=
  ∀ s : State, s.treeValid = true →
    ∃ t, exec .dstart s = .next t ∧ Completes .ok s t ∧ t.result0 = s.total ∧ t.result1 = 0
      ∧ t = { s.withCompletionOf t with resid := [], decRem := s.total, decActive := true }

/-- DSYM in a session with symbols left, where the available bits reach a leaf after k bits and the OUT
FIFO has room, consumes exactly the first k bits, fetching `max(0, ⌈(k − |resid|)/8⌉)` bytes for them,
emits the leaf's symbol and counts it (45_decode.md R182; 43_bit_buffer.md R155). -/
def Obligations.DsymDecodesOneSymbol : Prop :=
  ∀ (s : State) (r n : NodeId) (k : Nat) (sym : Byte), s.decActive = true → s.decRem ≠ 0 →
    s.root = some r → descend s.node r s.avail = some (k, n, sym) → s.outq.length < s.outDepth →
    ∃ t, exec .dsym s = .next t ∧ Completes .ok s t
      ∧ t.avail = s.avail.drop k ∧ t.inq = s.inq.drop ((k - s.resid.length + 7) / 8)
      ∧ t.outq = s.outq ++ [sym] ∧ t.decRem.toNat + 1 = s.decRem.toNat
      ∧ t.result0.toNat = sym.toNat ∧ t.result1 = BitVec.ofNat 32 k
      ∧ t = { s.withCompletionOf t with
          resid := t.resid, inq := t.inq, outq := t.outq, decRem := t.decRem }

/-- A DSYM whose input ends in the middle of a symbol completes with TRUNCATED: all input is consumed,
nothing is emitted and DEC_REM stays. After TOTAL symbols it completes with DEC_DONE and reads nothing.
Either ends the session (45_decode.md R182, R185, R186). -/
def Obligations.DsymEndsTheSession : Prop :=
  ∀ s : State, s.decActive = true →
    (∀ r, s.decRem ≠ 0 → s.root = some r → descend s.node r s.avail = none → s.inEos = true →
      ∃ t, exec .dsym s = .next t ∧ Completes .truncated s t ∧ t.result0 = 0 ∧ t.result1 = 0
        ∧ t = { s.withCompletionOf t with resid := [], inq := [], decActive := false })
    ∧ (s.decRem = 0 →
      ∃ t, exec .dsym s = .next t ∧ Completes .decDone s t ∧ t.result0 = 0 ∧ t.result1 = 0
        ∧ t = { s.withCompletionOf t with decActive := false })

/-- In a tree of the shape of R125 every bit string of at least N−1 bits reaches a leaf, and uses at most
N−1 of them: no corrupted input but a truncated one is an error (45_decode.md R181, R183, R187). -/
def Obligations.DescendReachesALeaf : Prop :=
  ∀ (node : Arena) (n : Nat) (r : NodeId) (bits : BitString), TreeShape node n (some r) →
    n - 1 ≤ bits.length →
    ∃ k leaf sym, descend node r bits = some (k, leaf, sym) ∧ k ≤ n - 1 ∧ leaf.val < n

/-- BGET with a bit available returns the first bit of the input and consumes it alone, fetching a byte
only where no residual bit is left (43_bit_buffer.md R154, R155, R158). -/
def Obligations.BgetReadsOneBit : Prop :=
  ∀ (s : State) (x : Bool) (rest : BitString), s.avail = x :: rest →
    ∃ t, exec .bget s = .next t ∧ Completes .ok s t
      ∧ t.avail = rest ∧ t.inq = s.inq.drop (if s.resid = [] then 1 else 0)
      ∧ t.result0 = (if x then 1 else 0) ∧ t.result1 = 0
      ∧ t = { s.withCompletionOf t with resid := t.resid, inq := t.inq }

/-- Decoding undoes encoding: where the input begins with the codes of a message, in any code table whose
codes lead to their symbols' leaves in this state's tree, and DEC_REM covers it, as many DSYMs as the
message has symbols emit exactly the message and leave the rest of the input. The decoding state needs
no valid code table of its own (45_decode.md R180, R188; 44_encode.md R171). -/
def Obligations.DecodedMessageIsTheOriginal : Prop :=
  ∀ (code : Vector CodeEntry 256) (m : List Byte) (rest : BitString) (s : State), CodesDescend code s →
    s.decActive = true → allPresent code m → s.avail = bodyBits code m ++ rest →
    m.length ≤ s.decRem.toNat → s.outq.length + m.length ≤ s.outDepth →
    ∃ t, execAll (List.replicate m.length .dsym) s = .next t
      ∧ t.outq = s.outq ++ m ∧ t.avail = rest ∧ t.decRem.toNat + m.length = s.decRem.toNat
      ∧ t = { s.withCompletionOf t with
          resid := t.resid, inq := t.inq, outq := t.outq, decRem := t.decRem }

/-! ### Completion, errors and holds, over all commands -/

/-- Every command but SRESET that does not hold completes as `finish` says, with the code of the table of
causes and its priority (60_exceptions.md R212, R214; 46_system.md R197). -/
def Obligations.CompletionCodesFollowTheTable : Prop :=
  ∀ (i : Instr) (s t : State), i ≠ .sreset → holds i s = false → exec i s = .next t →
    Completes (completionCode i s) s t

/-- A command that completes with an error leaves the tables, the write side, the OUT FIFO, CMD, ARG, CTRL
and the overrun flags as they were; RESULT1 is 0, and only FREQ_OVF reports in RESULT0. Only a truncated
DSYM touches the read side, only TOTAL_OVF the tree's flags and counts, only NO_SYMBOL and TOTAL_OVF end
an encode session, and only a DSYM and TOTAL_OVF a decode session (43_bit_buffer.md R158;
60_exceptions.md R210, R215). -/
def Obligations.FailedCommandsKeepTheTables : Prop :=
  ∀ (i : Instr) (s t : State), holds i s = false → exec i s = .next t → completionCode i s ≠ .ok →
    t.freq = s.freq ∧ t.node = s.node ∧ t.code = s.code ∧ t.leafOrd = s.leafOrd ∧ t.pend = s.pend
      ∧ t.outq = s.outq ∧ t.cmd = s.cmd ∧ t.arg = s.arg ∧ t.ctrlWord = s.ctrlWord
      ∧ t.cmdOvr = s.cmdOvr ∧ t.inOvr = s.inOvr ∧ t.result1 = 0
      ∧ (completionCode i s ≠ .freqOvf → t.result0 = 0)
      ∧ (¬ (i = .dsym ∧ completionCode i s = .truncated) → t.inq = s.inq ∧ t.resid = s.resid)
      ∧ (completionCode i s ≠ .totalOvf →
          t.treeValid = s.treeValid ∧ t.codesValid = s.codesValid ∧ t.treeEmpty = s.treeEmpty
          ∧ t.treeSingle = s.treeSingle ∧ t.total = s.total ∧ t.decRem = s.decRem ∧ t.nleaf = s.nleaf
          ∧ t.root = s.root)
      ∧ (completionCode i s ≠ .totalOvf → completionCode i s ≠ .noSymbol → t.encActive = s.encActive)
      ∧ (completionCode i s ≠ .totalOvf → i ≠ .dsym → t.decActive = s.decActive)

/-- A held command changes nothing: `pending` stays non-empty and BUSY stays 1 (46_system.md R198). That
the machine answers the same state is the model's choice (log 2). -/
def Obligations.HeldCommandsChangeNothing : Prop :=
  ∀ (i : Instr) (s : State), holds i s = true → exec i s = .next s

/-- No command is refused, and the only fault is that of a broken tree, in LRD or DSYM (log 10). -/
def Obligations.OnlyABrokenTreeStopsACommand : Prop :=
  ∀ (i : Instr) (s : State), (∃ t, exec i s = .next t)
    ∨ (exec i s = .fault .brokenTree ∧ (i = .dsym ∨ ∃ j, i = .lrd j))

/-- The write side and the read side share no state: a command that changes `pend` leaves `resid` and the
IN FIFO alone, and none but SRESET and the decode commands changes those
(43_bit_buffer.md R156). -/
def Obligations.ReadAndWriteSidesAreSeparate : Prop :=
  ∀ (i : Instr) (s t : State), i ≠ .sreset → exec i s = .next t →
    (t.pend ≠ s.pend → t.resid = s.resid ∧ t.inq = s.inq)
      ∧ (t.pend ≠ s.pend → i = .estart ∨ i = .eflush ∨ (∃ sym, i = .esym sym) ∨ (∃ n arg, i = .bpush n arg))
      ∧ (t.resid ≠ s.resid ∨ t.inq ≠ s.inq → i = .dstart ∨ i = .dsym ∨ i = .bget)

/-! ### The host's side -/

/-- Only aligned 32-bit accesses are defined: any other has no effect and reads zeros (20_memory.md R71);
a reserved offset reads 0 and ignores writes (R72); and a defined access carries the register word in
little-endian byte lanes (R73). The lanes a read returned stand in the model's own field (log 9). -/
def Obligations.HostAccessesAreAlignedLittleEndianWords : Prop :=
  ∀ (off : Byte) (s : State),
    (∀ n, ¬ (off.toNat % 4 = 0 ∧ n = 4) →
      performAccess (.read off n) s = { s with readLanes := List.replicate n 0 })
    ∧ (∀ lanes : List Byte, ¬ (off.toNat % 4 = 0 ∧ lanes.length = 4) →
      performAccess (.write off lanes) s = s)
    ∧ (0x38 ≤ off.toNat → ∀ v, hostRead off s = (0, s) ∧ hostWrite off v s = s)
    ∧ (off.toNat % 4 = 0 →
      performAccess (.read off 4) s =
        { (hostRead off s).2 with readLanes :=
            [(hostRead off s).1.extractLsb' 0 8, (hostRead off s).1.extractLsb' 8 8,
              (hostRead off s).1.extractLsb' 16 8, (hostRead off s).1.extractLsb' 24 8] }
      ∧ ∀ a b c d : Byte, performAccess (.write off [a, b, c, d]) s = hostWrite off (d ++ c ++ b ++ a) s)

/-- What each register reads, that no read but OUT_DATA's has an effect, that a write of a read-only
register or of OUT_DATA is ignored, and that a write of ARG writes ARG alone (10_state.md R33 to R47;
20_memory.md R75, R78 to R81, R93). -/
def Obligations.RegisterReadsShowTheState : Prop :=
  ∀ s : State, StatusInv s → FifoInv s →
    (∀ off : Byte, off.toNat ≠ 0x20 → (hostRead off s).2 = s)
    ∧ (hostRead 0x00 s).1 = 0x48434201 ∧ CtrlFields (hostRead 0x04 s).1 s
    ∧ StatusFields (hostRead 0x08 s).1 s
    ∧ (hostRead 0x0C s).1 = s.cmd ∧ (hostRead 0x10 s).1 = s.arg
    ∧ (hostRead 0x14 s).1 = s.result0 ∧ (hostRead 0x18 s).1 = s.result1 ∧ (hostRead 0x1C s).1 = 0
    ∧ (∀ (b : Byte) (rest : List Byte), s.outq = b :: rest → (hostRead 0x20 s).1.toNat = 0x100 + b.toNat)
    ∧ (s.outq = [] → (hostRead 0x20 s).1 = 0)
    ∧ (hostRead 0x24 s).1.toNat = s.inq.length + 2 ^ 16 * s.outq.length
    ∧ (hostRead 0x28 s).1 = s.total ∧ (hostRead 0x2C s).1 = s.decRem
    ∧ (hostRead 0x30 s).1.toNat = s.nleaf.toNat
    ∧ (hostRead 0x34 s).1.toNat = s.inDepth + 2 ^ 16 * s.outDepth
    ∧ (∀ off ∈ ([0x00, 0x14, 0x18, 0x20, 0x24, 0x28, 0x2C, 0x30, 0x34] : List Byte),
        ∀ v, hostWrite off v s = s)
    ∧ ∀ v, hostWrite 0x10 v s = { s with arg := v }

/-- A CTRL write sets the enables and IN_EOS and empties the FIFOs that bits 4 and 5 select
(20_memory.md R75). -/
def Obligations.CtrlWriteSetsItsFields : Prop :=
  ∀ (v : Word) (s : State), ∃ t, hostWrite 0x04 v s = t
    ∧ t.ieDone = v.getLsbD 0 ∧ t.ieErr = v.getLsbD 1 ∧ t.ieOvr = v.getLsbD 2 ∧ t.inEos = v.getLsbD 3
    ∧ t.inq = (if v.getLsbD 4 then [] else s.inq) ∧ t.outq = (if v.getLsbD 5 then [] else s.outq)
    ∧ t = { s with
        ieDone := t.ieDone, ieErr := t.ieErr, ieOvr := t.ieOvr, inEos := t.inEos, inq := t.inq
        outq := t.outq }
    ∧ (hostRead 0x04 t).1 = v &&& 0xF

/-- A STATUS write clears DONE, ERR with FIRST_ERR, CMD_OVR and IN_OVR where bits 1 to 4 are 1, and
nothing else (20_memory.md R76). -/
def Obligations.StatusWriteClearsTheWrittenFlags : Prop :=
  ∀ (v : Word) (s : State), ∃ t, hostWrite 0x08 v s = t
    ∧ t.done = (if v.getLsbD 1 then false else s.done) ∧ t.err = (if v.getLsbD 2 then false else s.err)
    ∧ t.firstErr = (if v.getLsbD 2 then .ok else s.firstErr)
    ∧ t.cmdOvr = (if v.getLsbD 3 then false else s.cmdOvr)
    ∧ t.inOvr = (if v.getLsbD 4 then false else s.inOvr)
    ∧ t = { s with
        done := t.done, err := t.err, firstErr := t.firstErr, cmdOvr := t.cmdOvr, inOvr := t.inOvr }

/-- A CMD write issues the word with ARG latched beside it when nothing is pending; while BUSY = 1 it is
dropped and sets CMD_OVR (20_memory.md R77). -/
def Obligations.CmdWriteIssuesOrIsDropped : Prop :=
  ∀ (v : Word) (s : State),
    (s.pending = none →
      hostWrite 0x0C v s = { s with pending := some { word := v, arg := s.arg }, cmd := v })
    ∧ (∀ c, s.pending = some c → hostWrite 0x0C v s = { s with cmdOvr := true })

/-- An IN_DATA write pushes its low byte at the tail of the IN FIFO, or drops it and sets IN_OVR when
IN_EOS = 1 or the FIFO is full (20_memory.md R79). An OUT_DATA read returns `0x100 | b` and pops the OUT
FIFO's head byte b, or returns 0 with no effect when it is empty (R80). -/
def Obligations.FifoPortsPushAndPop : Prop :=
  ∀ (v : Word) (s : State),
    (s.inEos = true ∨ s.inq.length = s.inDepth → hostWrite 0x1C v s = { s with inOvr := true })
    ∧ (s.inEos = false → s.inq.length ≠ s.inDepth →
      hostWrite 0x1C v s = { s with inq := s.inq ++ [v.extractLsb' 0 8] })
    ∧ (∀ (b : Byte) (rest : List Byte), s.outq = b :: rest →
      hostRead 0x20 s = (0x100 ||| b.setWidth 32, { s with outq := rest }))
    ∧ (s.outq = [] → hostRead 0x20 s = (0, s))
    ∧ (hostRead 0x1C s).1 = 0 ∧ hostWrite 0x20 v s = s

/-- irq is the OR of DONE, ERR and the overruns under their enables, read off the CTRL and STATUS words
(60_exceptions.md R217). -/
def Obligations.IrqFollowsTheEnabledFlags : Prop :=
  ∀ s : State, s.irq =
    ((s.ctrlWord.getLsbD 0 && s.statusWord.getLsbD 1) || (s.ctrlWord.getLsbD 1 && s.statusWord.getLsbD 2)
      || (s.ctrlWord.getLsbD 2 && (s.statusWord.getLsbD 3 || s.statusWord.getLsbD 4)))

/-- The values the spec gives after a hardware reset: R61's table, DONE and CMD 0, and every register but
ID and PARAM reads 0 (10_state.md R61). -/
def Obligations.ResetLeavesTheResetValues : Prop :=
  ResetValues State.reset ∧ State.reset.done = false ∧ State.reset.cmd = 0 ∧ State.reset.irq = false
    ∧ (hostRead 0x00 State.reset).1 = 0x48434201
    ∧ ∀ off : Byte, off.toNat ≠ 0x00 → off.toNat ≠ 0x34 → (hostRead off State.reset).1 = 0

/-- Asserting the reset input, and ending its assertion, gives every piece of state its reset value; a
pending or held command is discarded without completing and irq is 0
(70_reset_and_hazards.md R240). The level is the model's own field (log 13). -/
def Obligations.ResetInputRestoresResetValues : Prop :=
  ∀ (s t : State) (asserted : Bool) (rest : List Turn), s.schedule = .resetInput asserted :: rest →
    asserted = true ∨ s.rst = true → step s = .next t →
    ResetValues t ∧ t.done = false ∧ t.cmd = 0 ∧ t.irq = false ∧ t.rst = asserted ∧ t.schedule = rest

/-! ### Encoding and the step -/

/-- Decoding an encoded well-formed command gives it back, with every operand. -/
def Obligations.DecodeOfEncodeIsTheCommand : Prop :=
  ∀ i : Instr, i.wellFormed = true → decode (encode i).1 (encode i).2 = .ok i

/-- A field a command does not use is ignored: every word with a defined OP decodes to a command, whatever
its other fields and ARG hold, and the same word with every unused field set to 0, and ARG too where the
command does not use it, decodes to the same command. There is no must-be-zero check (30_encoding.md R97,
R98, R102). The last clause says that this pair is the command's encoding: its word is the assembler's
(R105), and that encode gives 0 for an ARG the command does not read is the model's choice (log 11). -/
def Obligations.UnusedFieldsAreIgnored : Prop :=
  ∀ word arg : Word, (opField word).toNat ∈ definedOps →
    ∃ i, decode word arg = .ok i
      ∧ decode (clearUnused word) (clearUnusedArg word arg) = .ok i
      ∧ encode i = (clearUnused word, clearUnusedArg word arg)

/-- Words written out from the table of 30_encoding.md R105 and the vectors of 95_test_vectors.md decode
to the commands they stand for. -/
def Obligations.TableWordsDecode : Prop :=
  decode 0x00000000 0 = .ok .nop ∧ decode 0x11420000 6 = .ok (.fwr 0x42 6)
    ∧ decode 0x20FFFFFF 0 = .ok .build ∧ decode 0x22410001 0 = .ok (.crd 0x41 1)
    ∧ decode 0x2400000E 0 = .ok (.nrd 14) ∧ decode 0x31410000 0 = .ok (.esym 0x41)
    ∧ decode 0x33000020 0x12345678 = .ok (.bpush 32 0x12345678) ∧ decode 0x41000000 0 = .ok .dsym
    ∧ decode 0x42000000 0 = .ok .bget ∧ decode 0x02000000 0 = .error (.illegalOpcode 0x02)

/-- When it is the sequencer's turn and the pending word decodes to a command, the step is that command's
exec on the state with the turn taken (46_system.md R195). Which turn comes next stands in the model's
schedule; an empty schedule leaves the turn to the sequencer (log 1). -/
def Obligations.StepRunsTheDecodedCommand : Prop :=
  ∀ (s : State) (c : Command) (i : Instr), s.rst = false → s.pending = some c →
    decode c.word c.arg = .ok i →
    (s.schedule = [] → step s = exec i s)
    ∧ (∀ rest, s.schedule = .sequencer :: rest → step s = exec i { s with schedule := rest })

/-- A host turn is one atomic register access on the state as it stands, before any later turn; with
nothing pending the sequencer changes nothing (10_state.md R30, R31; 70_reset_and_hazards.md R241; log 1,
log 2). While the reset input is asserted a host access is refused by name, since the spec does not
define it and says that a model refuses it (R240, 93_implementation_defined.md X7; log 7). -/
def Obligations.HostTurnIsOneAccess : Prop :=
  ∀ s : State,
    (∀ (a : HostAccess) (rest : List Turn), s.schedule = .host a :: rest →
      (s.rst = false → step s = .next (performAccess a { s with schedule := rest }))
      ∧ (s.rst = true → step s = .refused .hostAccessInReset))
    ∧ (s.rst = false → s.pending = none → s.schedule = [] → step s = .next s)

/-! ### Invariants -/

/-- The reset state meets every invariant. -/
def Obligations.ResetMeetsTheInvariants : Prop :=
  StatusInv State.reset ∧ FifoInv State.reset ∧ RegisterInv State.reset ∧ TreeInv State.reset
    ∧ LeafOrderInv State.reset ∧ CodesInv State.reset

/-- The STATUS invariants of 10_state.md R36, the FIFO bounds and what the registers say of one another
are kept by every step, from every state that meets them. -/
def Obligations.EveryStepKeepsTheStatusInvariants : Prop :=
  ∀ s t : State, StatusInv s ∧ FifoInv s ∧ RegisterInv s → step s = .next t →
    StatusInv t ∧ FifoInv t ∧ RegisterInv t

/-- Every step keeps the tree invariants: the shape of a valid tree, and its root's frequency being TOTAL
(41_tree_builder.md R125). -/
def Obligations.EveryStepKeepsTheTree : Prop :=
  ∀ s t : State, TreeInv s → step s = .next t → TreeInv t

/-- Every step keeps the first N entries of the leaf order table naming leaves of the tree, nodes 0..N−1,
in states whose tree meets the tree invariants (10_state.md R54, 41_tree_builder.md R122, R125,
42_code_table.md R139). -/
def Obligations.EveryStepKeepsTheLeafOrder : Prop :=
  ∀ s t : State, TreeInv s → LeafOrderInv s → step s = .next t → LeafOrderInv t

/-- Every step keeps each code leading to its symbol's leaf (42_code_table.md R135, 45_decode.md R181). -/
def Obligations.EveryStepKeepsTheCodes : Prop :=
  ∀ s t : State, CodesInv s → step s = .next t → CodesInv t

/-- The HCB never stops: in states that meet the register and leaf order invariants a step never faults
(60_exceptions.md R210, R220), and is refused only for a host access while the reset input is asserted,
which the spec does not define and says that a model refuses (70_reset_and_hazards.md R240,
93_implementation_defined.md X7; log 7). That an idle or held turn answers a next state is the model's
choice (log 2). -/
def Obligations.NoStepFaults : Prop :=
  ∀ s : State, RegisterInv s → LeafOrderInv s →
    (∃ t, step s = .next t) ∨
      (s.rst = true ∧ (∃ a rest, s.schedule = .host a :: rest) ∧ step s = .refused .hostAccessInReset)
end

