-- ==== Sys2Proof/Laws/State.lean ====
section
/-! SUPPORT. One lemma for each field of State under each shared update, true by unfolding; later proofs
cite these and never unfold a record update. -/

namespace Sys2Proof.Machine

/-! ### State.clearResults -/

@[simp] theorem State.clearResults_ieDone (s : State) : (s.clearResults).ieDone = s.ieDone := rfl
@[simp] theorem State.clearResults_ieErr (s : State) : (s.clearResults).ieErr = s.ieErr := rfl
@[simp] theorem State.clearResults_ieOvr (s : State) : (s.clearResults).ieOvr = s.ieOvr := rfl
@[simp] theorem State.clearResults_inEos (s : State) : (s.clearResults).inEos = s.inEos := rfl
@[simp] theorem State.clearResults_done (s : State) : (s.clearResults).done = s.done := rfl
@[simp] theorem State.clearResults_err (s : State) : (s.clearResults).err = s.err := rfl
@[simp] theorem State.clearResults_cmdOvr (s : State) : (s.clearResults).cmdOvr = s.cmdOvr := rfl
@[simp] theorem State.clearResults_inOvr (s : State) : (s.clearResults).inOvr = s.inOvr := rfl
@[simp] theorem State.clearResults_treeValid (s : State) : (s.clearResults).treeValid = s.treeValid := rfl
@[simp] theorem State.clearResults_codesValid (s : State) : (s.clearResults).codesValid = s.codesValid := rfl
@[simp] theorem State.clearResults_encActive (s : State) : (s.clearResults).encActive = s.encActive := rfl
@[simp] theorem State.clearResults_decActive (s : State) : (s.clearResults).decActive = s.decActive := rfl
@[simp] theorem State.clearResults_treeEmpty (s : State) : (s.clearResults).treeEmpty = s.treeEmpty := rfl
@[simp] theorem State.clearResults_treeSingle (s : State) : (s.clearResults).treeSingle = s.treeSingle := rfl
@[simp] theorem State.clearResults_cc (s : State) : (s.clearResults).cc = s.cc := rfl
@[simp] theorem State.clearResults_firstErr (s : State) : (s.clearResults).firstErr = s.firstErr := rfl
@[simp] theorem State.clearResults_cmd (s : State) : (s.clearResults).cmd = s.cmd := rfl
@[simp] theorem State.clearResults_arg (s : State) : (s.clearResults).arg = s.arg := rfl
@[simp] theorem State.clearResults_result0 (s : State) : (s.clearResults).result0 = 0 := rfl
@[simp] theorem State.clearResults_result1 (s : State) : (s.clearResults).result1 = 0 := rfl
@[simp] theorem State.clearResults_total (s : State) : (s.clearResults).total = s.total := rfl
@[simp] theorem State.clearResults_decRem (s : State) : (s.clearResults).decRem = s.decRem := rfl
@[simp] theorem State.clearResults_nleaf (s : State) : (s.clearResults).nleaf = s.nleaf := rfl
@[simp] theorem State.clearResults_pending (s : State) : (s.clearResults).pending = s.pending := rfl
@[simp] theorem State.clearResults_freq (s : State) : (s.clearResults).freq = s.freq := rfl
@[simp] theorem State.clearResults_node (s : State) : (s.clearResults).node = s.node := rfl
@[simp] theorem State.clearResults_root (s : State) : (s.clearResults).root = s.root := rfl
@[simp] theorem State.clearResults_code (s : State) : (s.clearResults).code = s.code := rfl
@[simp] theorem State.clearResults_leafOrd (s : State) : (s.clearResults).leafOrd = s.leafOrd := rfl
@[simp] theorem State.clearResults_pend (s : State) : (s.clearResults).pend = s.pend := rfl
@[simp] theorem State.clearResults_resid (s : State) : (s.clearResults).resid = s.resid := rfl
@[simp] theorem State.clearResults_inq (s : State) : (s.clearResults).inq = s.inq := rfl
@[simp] theorem State.clearResults_outq (s : State) : (s.clearResults).outq = s.outq := rfl
@[simp] theorem State.clearResults_inDepth (s : State) : (s.clearResults).inDepth = s.inDepth := rfl
@[simp] theorem State.clearResults_outDepth (s : State) : (s.clearResults).outDepth = s.outDepth := rfl
@[simp] theorem State.clearResults_rst (s : State) : (s.clearResults).rst = s.rst := rfl
@[simp] theorem State.clearResults_schedule (s : State) : (s.clearResults).schedule = s.schedule := rfl
@[simp] theorem State.clearResults_readLanes (s : State) : (s.clearResults).readLanes = s.readLanes := rfl
@[simp] theorem State.clearResults_freeCount (s : State) : (s.clearResults).freeCount = s.freeCount := rfl

/-! ### State.finish -/

@[simp] theorem State.finish_ieDone (s : State) (cc : CompletionCode) : (s.finish cc).ieDone = s.ieDone := rfl
@[simp] theorem State.finish_ieErr (s : State) (cc : CompletionCode) : (s.finish cc).ieErr = s.ieErr := rfl
@[simp] theorem State.finish_ieOvr (s : State) (cc : CompletionCode) : (s.finish cc).ieOvr = s.ieOvr := rfl
@[simp] theorem State.finish_inEos (s : State) (cc : CompletionCode) : (s.finish cc).inEos = s.inEos := rfl
@[simp] theorem State.finish_done (s : State) (cc : CompletionCode) : (s.finish cc).done = true := rfl
@[simp] theorem State.finish_err (s : State) (cc : CompletionCode) : (s.finish cc).err = errAfter cc s := rfl
@[simp] theorem State.finish_cmdOvr (s : State) (cc : CompletionCode) : (s.finish cc).cmdOvr = s.cmdOvr := rfl
@[simp] theorem State.finish_inOvr (s : State) (cc : CompletionCode) : (s.finish cc).inOvr = s.inOvr := rfl
@[simp] theorem State.finish_treeValid (s : State) (cc : CompletionCode) : (s.finish cc).treeValid = s.treeValid := rfl
@[simp] theorem State.finish_codesValid (s : State) (cc : CompletionCode) : (s.finish cc).codesValid = s.codesValid := rfl
@[simp] theorem State.finish_encActive (s : State) (cc : CompletionCode) : (s.finish cc).encActive = s.encActive := rfl
@[simp] theorem State.finish_decActive (s : State) (cc : CompletionCode) : (s.finish cc).decActive = s.decActive := rfl
@[simp] theorem State.finish_treeEmpty (s : State) (cc : CompletionCode) : (s.finish cc).treeEmpty = s.treeEmpty := rfl
@[simp] theorem State.finish_treeSingle (s : State) (cc : CompletionCode) : (s.finish cc).treeSingle = s.treeSingle := rfl
@[simp] theorem State.finish_cc (s : State) (cc : CompletionCode) : (s.finish cc).cc = cc := rfl
@[simp] theorem State.finish_firstErr (s : State) (cc : CompletionCode) : (s.finish cc).firstErr = firstErrAfter cc s := rfl
@[simp] theorem State.finish_cmd (s : State) (cc : CompletionCode) : (s.finish cc).cmd = s.cmd := rfl
@[simp] theorem State.finish_arg (s : State) (cc : CompletionCode) : (s.finish cc).arg = s.arg := rfl
@[simp] theorem State.finish_result0 (s : State) (cc : CompletionCode) : (s.finish cc).result0 = s.result0 := rfl
@[simp] theorem State.finish_result1 (s : State) (cc : CompletionCode) : (s.finish cc).result1 = s.result1 := rfl
@[simp] theorem State.finish_total (s : State) (cc : CompletionCode) : (s.finish cc).total = s.total := rfl
@[simp] theorem State.finish_decRem (s : State) (cc : CompletionCode) : (s.finish cc).decRem = s.decRem := rfl
@[simp] theorem State.finish_nleaf (s : State) (cc : CompletionCode) : (s.finish cc).nleaf = s.nleaf := rfl
@[simp] theorem State.finish_pending (s : State) (cc : CompletionCode) : (s.finish cc).pending = none := rfl
@[simp] theorem State.finish_freq (s : State) (cc : CompletionCode) : (s.finish cc).freq = s.freq := rfl
@[simp] theorem State.finish_node (s : State) (cc : CompletionCode) : (s.finish cc).node = s.node := rfl
@[simp] theorem State.finish_root (s : State) (cc : CompletionCode) : (s.finish cc).root = s.root := rfl
@[simp] theorem State.finish_code (s : State) (cc : CompletionCode) : (s.finish cc).code = s.code := rfl
@[simp] theorem State.finish_leafOrd (s : State) (cc : CompletionCode) : (s.finish cc).leafOrd = s.leafOrd := rfl
@[simp] theorem State.finish_pend (s : State) (cc : CompletionCode) : (s.finish cc).pend = s.pend := rfl
@[simp] theorem State.finish_resid (s : State) (cc : CompletionCode) : (s.finish cc).resid = s.resid := rfl
@[simp] theorem State.finish_inq (s : State) (cc : CompletionCode) : (s.finish cc).inq = s.inq := rfl
@[simp] theorem State.finish_outq (s : State) (cc : CompletionCode) : (s.finish cc).outq = s.outq := rfl
@[simp] theorem State.finish_inDepth (s : State) (cc : CompletionCode) : (s.finish cc).inDepth = s.inDepth := rfl
@[simp] theorem State.finish_outDepth (s : State) (cc : CompletionCode) : (s.finish cc).outDepth = s.outDepth := rfl
@[simp] theorem State.finish_rst (s : State) (cc : CompletionCode) : (s.finish cc).rst = s.rst := rfl
@[simp] theorem State.finish_schedule (s : State) (cc : CompletionCode) : (s.finish cc).schedule = s.schedule := rfl
@[simp] theorem State.finish_readLanes (s : State) (cc : CompletionCode) : (s.finish cc).readLanes = s.readLanes := rfl
@[simp] theorem State.finish_freeCount (s : State) (cc : CompletionCode) : (s.finish cc).freeCount = s.freeCount := rfl

/-! ### State.emit -/

@[simp] theorem State.emit_ieDone (s : State) (b : Byte) : (s.emit b).ieDone = s.ieDone := rfl
@[simp] theorem State.emit_ieErr (s : State) (b : Byte) : (s.emit b).ieErr = s.ieErr := rfl
@[simp] theorem State.emit_ieOvr (s : State) (b : Byte) : (s.emit b).ieOvr = s.ieOvr := rfl
@[simp] theorem State.emit_inEos (s : State) (b : Byte) : (s.emit b).inEos = s.inEos := rfl
@[simp] theorem State.emit_done (s : State) (b : Byte) : (s.emit b).done = s.done := rfl
@[simp] theorem State.emit_err (s : State) (b : Byte) : (s.emit b).err = s.err := rfl
@[simp] theorem State.emit_cmdOvr (s : State) (b : Byte) : (s.emit b).cmdOvr = s.cmdOvr := rfl
@[simp] theorem State.emit_inOvr (s : State) (b : Byte) : (s.emit b).inOvr = s.inOvr := rfl
@[simp] theorem State.emit_treeValid (s : State) (b : Byte) : (s.emit b).treeValid = s.treeValid := rfl
@[simp] theorem State.emit_codesValid (s : State) (b : Byte) : (s.emit b).codesValid = s.codesValid := rfl
@[simp] theorem State.emit_encActive (s : State) (b : Byte) : (s.emit b).encActive = s.encActive := rfl
@[simp] theorem State.emit_decActive (s : State) (b : Byte) : (s.emit b).decActive = s.decActive := rfl
@[simp] theorem State.emit_treeEmpty (s : State) (b : Byte) : (s.emit b).treeEmpty = s.treeEmpty := rfl
@[simp] theorem State.emit_treeSingle (s : State) (b : Byte) : (s.emit b).treeSingle = s.treeSingle := rfl
@[simp] theorem State.emit_cc (s : State) (b : Byte) : (s.emit b).cc = s.cc := rfl
@[simp] theorem State.emit_firstErr (s : State) (b : Byte) : (s.emit b).firstErr = s.firstErr := rfl
@[simp] theorem State.emit_cmd (s : State) (b : Byte) : (s.emit b).cmd = s.cmd := rfl
@[simp] theorem State.emit_arg (s : State) (b : Byte) : (s.emit b).arg = s.arg := rfl
@[simp] theorem State.emit_result0 (s : State) (b : Byte) : (s.emit b).result0 = s.result0 := rfl
@[simp] theorem State.emit_result1 (s : State) (b : Byte) : (s.emit b).result1 = s.result1 := rfl
@[simp] theorem State.emit_total (s : State) (b : Byte) : (s.emit b).total = s.total := rfl
@[simp] theorem State.emit_decRem (s : State) (b : Byte) : (s.emit b).decRem = s.decRem := rfl
@[simp] theorem State.emit_nleaf (s : State) (b : Byte) : (s.emit b).nleaf = s.nleaf := rfl
@[simp] theorem State.emit_pending (s : State) (b : Byte) : (s.emit b).pending = s.pending := rfl
@[simp] theorem State.emit_freq (s : State) (b : Byte) : (s.emit b).freq = s.freq := rfl
@[simp] theorem State.emit_node (s : State) (b : Byte) : (s.emit b).node = s.node := rfl
@[simp] theorem State.emit_root (s : State) (b : Byte) : (s.emit b).root = s.root := rfl
@[simp] theorem State.emit_code (s : State) (b : Byte) : (s.emit b).code = s.code := rfl
@[simp] theorem State.emit_leafOrd (s : State) (b : Byte) : (s.emit b).leafOrd = s.leafOrd := rfl
@[simp] theorem State.emit_pend (s : State) (b : Byte) : (s.emit b).pend = s.pend := rfl
@[simp] theorem State.emit_resid (s : State) (b : Byte) : (s.emit b).resid = s.resid := rfl
@[simp] theorem State.emit_inq (s : State) (b : Byte) : (s.emit b).inq = s.inq := rfl
@[simp] theorem State.emit_outq (s : State) (b : Byte) : (s.emit b).outq = s.outq ++ [b] := rfl
@[simp] theorem State.emit_inDepth (s : State) (b : Byte) : (s.emit b).inDepth = s.inDepth := rfl
@[simp] theorem State.emit_outDepth (s : State) (b : Byte) : (s.emit b).outDepth = s.outDepth := rfl
@[simp] theorem State.emit_rst (s : State) (b : Byte) : (s.emit b).rst = s.rst := rfl
@[simp] theorem State.emit_schedule (s : State) (b : Byte) : (s.emit b).schedule = s.schedule := rfl
@[simp] theorem State.emit_readLanes (s : State) (b : Byte) : (s.emit b).readLanes = s.readLanes := rfl
@[simp] theorem State.emit_freeCount (s : State) (b : Byte) : (s.emit b).freeCount = s.freeCount := rfl

/-! ### State.invalidateTree -/

@[simp] theorem State.invalidateTree_ieDone (s : State) : (s.invalidateTree).ieDone = s.ieDone := rfl
@[simp] theorem State.invalidateTree_ieErr (s : State) : (s.invalidateTree).ieErr = s.ieErr := rfl
@[simp] theorem State.invalidateTree_ieOvr (s : State) : (s.invalidateTree).ieOvr = s.ieOvr := rfl
@[simp] theorem State.invalidateTree_inEos (s : State) : (s.invalidateTree).inEos = s.inEos := rfl
@[simp] theorem State.invalidateTree_done (s : State) : (s.invalidateTree).done = s.done := rfl
@[simp] theorem State.invalidateTree_err (s : State) : (s.invalidateTree).err = s.err := rfl
@[simp] theorem State.invalidateTree_cmdOvr (s : State) : (s.invalidateTree).cmdOvr = s.cmdOvr := rfl
@[simp] theorem State.invalidateTree_inOvr (s : State) : (s.invalidateTree).inOvr = s.inOvr := rfl
@[simp] theorem State.invalidateTree_treeValid (s : State) : (s.invalidateTree).treeValid = false := rfl
@[simp] theorem State.invalidateTree_codesValid (s : State) : (s.invalidateTree).codesValid = false := rfl
@[simp] theorem State.invalidateTree_encActive (s : State) : (s.invalidateTree).encActive = false := rfl
@[simp] theorem State.invalidateTree_decActive (s : State) : (s.invalidateTree).decActive = false := rfl
@[simp] theorem State.invalidateTree_treeEmpty (s : State) : (s.invalidateTree).treeEmpty = false := rfl
@[simp] theorem State.invalidateTree_treeSingle (s : State) : (s.invalidateTree).treeSingle = false := rfl
@[simp] theorem State.invalidateTree_cc (s : State) : (s.invalidateTree).cc = s.cc := rfl
@[simp] theorem State.invalidateTree_firstErr (s : State) : (s.invalidateTree).firstErr = s.firstErr := rfl
@[simp] theorem State.invalidateTree_cmd (s : State) : (s.invalidateTree).cmd = s.cmd := rfl
@[simp] theorem State.invalidateTree_arg (s : State) : (s.invalidateTree).arg = s.arg := rfl
@[simp] theorem State.invalidateTree_result0 (s : State) : (s.invalidateTree).result0 = s.result0 := rfl
@[simp] theorem State.invalidateTree_result1 (s : State) : (s.invalidateTree).result1 = s.result1 := rfl
@[simp] theorem State.invalidateTree_total (s : State) : (s.invalidateTree).total = 0 := rfl
@[simp] theorem State.invalidateTree_decRem (s : State) : (s.invalidateTree).decRem = 0 := rfl
@[simp] theorem State.invalidateTree_nleaf (s : State) : (s.invalidateTree).nleaf = 0 := rfl
@[simp] theorem State.invalidateTree_pending (s : State) : (s.invalidateTree).pending = s.pending := rfl
@[simp] theorem State.invalidateTree_freq (s : State) : (s.invalidateTree).freq = s.freq := rfl
@[simp] theorem State.invalidateTree_node (s : State) : (s.invalidateTree).node = s.node := rfl
@[simp] theorem State.invalidateTree_root (s : State) : (s.invalidateTree).root = none := rfl
@[simp] theorem State.invalidateTree_code (s : State) : (s.invalidateTree).code = s.code := rfl
@[simp] theorem State.invalidateTree_leafOrd (s : State) : (s.invalidateTree).leafOrd = s.leafOrd := rfl
@[simp] theorem State.invalidateTree_pend (s : State) : (s.invalidateTree).pend = s.pend := rfl
@[simp] theorem State.invalidateTree_resid (s : State) : (s.invalidateTree).resid = s.resid := rfl
@[simp] theorem State.invalidateTree_inq (s : State) : (s.invalidateTree).inq = s.inq := rfl
@[simp] theorem State.invalidateTree_outq (s : State) : (s.invalidateTree).outq = s.outq := rfl
@[simp] theorem State.invalidateTree_inDepth (s : State) : (s.invalidateTree).inDepth = s.inDepth := rfl
@[simp] theorem State.invalidateTree_outDepth (s : State) : (s.invalidateTree).outDepth = s.outDepth := rfl
@[simp] theorem State.invalidateTree_rst (s : State) : (s.invalidateTree).rst = s.rst := rfl
@[simp] theorem State.invalidateTree_schedule (s : State) : (s.invalidateTree).schedule = s.schedule := rfl
@[simp] theorem State.invalidateTree_readLanes (s : State) : (s.invalidateTree).readLanes = s.readLanes := rfl
@[simp] theorem State.invalidateTree_freeCount (s : State) : (s.invalidateTree).freeCount = s.freeCount := rfl

/-! ### State.resetAll -/

@[simp] theorem State.resetAll_ieDone (s : State) : (s.resetAll).ieDone = false := rfl
@[simp] theorem State.resetAll_ieErr (s : State) : (s.resetAll).ieErr = false := rfl
@[simp] theorem State.resetAll_ieOvr (s : State) : (s.resetAll).ieOvr = false := rfl
@[simp] theorem State.resetAll_inEos (s : State) : (s.resetAll).inEos = false := rfl
@[simp] theorem State.resetAll_done (s : State) : (s.resetAll).done = false := rfl
@[simp] theorem State.resetAll_err (s : State) : (s.resetAll).err = false := rfl
@[simp] theorem State.resetAll_cmdOvr (s : State) : (s.resetAll).cmdOvr = false := rfl
@[simp] theorem State.resetAll_inOvr (s : State) : (s.resetAll).inOvr = false := rfl
@[simp] theorem State.resetAll_treeValid (s : State) : (s.resetAll).treeValid = false := rfl
@[simp] theorem State.resetAll_codesValid (s : State) : (s.resetAll).codesValid = false := rfl
@[simp] theorem State.resetAll_encActive (s : State) : (s.resetAll).encActive = false := rfl
@[simp] theorem State.resetAll_decActive (s : State) : (s.resetAll).decActive = false := rfl
@[simp] theorem State.resetAll_treeEmpty (s : State) : (s.resetAll).treeEmpty = false := rfl
@[simp] theorem State.resetAll_treeSingle (s : State) : (s.resetAll).treeSingle = false := rfl
@[simp] theorem State.resetAll_cc (s : State) : (s.resetAll).cc = .ok := rfl
@[simp] theorem State.resetAll_firstErr (s : State) : (s.resetAll).firstErr = .ok := rfl
@[simp] theorem State.resetAll_cmd (s : State) : (s.resetAll).cmd = 0 := rfl
@[simp] theorem State.resetAll_arg (s : State) : (s.resetAll).arg = 0 := rfl
@[simp] theorem State.resetAll_result0 (s : State) : (s.resetAll).result0 = 0 := rfl
@[simp] theorem State.resetAll_result1 (s : State) : (s.resetAll).result1 = 0 := rfl
@[simp] theorem State.resetAll_total (s : State) : (s.resetAll).total = 0 := rfl
@[simp] theorem State.resetAll_decRem (s : State) : (s.resetAll).decRem = 0 := rfl
@[simp] theorem State.resetAll_nleaf (s : State) : (s.resetAll).nleaf = 0 := rfl
@[simp] theorem State.resetAll_pending (s : State) : (s.resetAll).pending = none := rfl
@[simp] theorem State.resetAll_freq (s : State) : (s.resetAll).freq = Vector.replicate 256 0 := rfl
@[simp] theorem State.resetAll_node (s : State) : (s.resetAll).node = freeArena s.freeCount := rfl
@[simp] theorem State.resetAll_root (s : State) : (s.resetAll).root = none := rfl
@[simp] theorem State.resetAll_code (s : State) : (s.resetAll).code = freeCodes s.freeCount := rfl
@[simp] theorem State.resetAll_leafOrd (s : State) : (s.resetAll).leafOrd = freeLeafOrder s.freeCount := rfl
@[simp] theorem State.resetAll_pend (s : State) : (s.resetAll).pend = [] := rfl
@[simp] theorem State.resetAll_resid (s : State) : (s.resetAll).resid = [] := rfl
@[simp] theorem State.resetAll_inq (s : State) : (s.resetAll).inq = [] := rfl
@[simp] theorem State.resetAll_outq (s : State) : (s.resetAll).outq = [] := rfl
@[simp] theorem State.resetAll_inDepth (s : State) : (s.resetAll).inDepth = s.inDepth := rfl
@[simp] theorem State.resetAll_outDepth (s : State) : (s.resetAll).outDepth = s.outDepth := rfl
@[simp] theorem State.resetAll_rst (s : State) : (s.resetAll).rst = s.rst := rfl
@[simp] theorem State.resetAll_schedule (s : State) : (s.resetAll).schedule = s.schedule := rfl
@[simp] theorem State.resetAll_readLanes (s : State) : (s.resetAll).readLanes = s.readLanes := rfl
@[simp] theorem State.resetAll_freeCount (s : State) : (s.resetAll).freeCount = s.freeCount + 1 := rfl

/-! ### State.withCompletionOf -/

@[simp] theorem State.withCompletionOf_ieDone (s : State) (t : State) : (s.withCompletionOf t).ieDone = s.ieDone := rfl
@[simp] theorem State.withCompletionOf_ieErr (s : State) (t : State) : (s.withCompletionOf t).ieErr = s.ieErr := rfl
@[simp] theorem State.withCompletionOf_ieOvr (s : State) (t : State) : (s.withCompletionOf t).ieOvr = s.ieOvr := rfl
@[simp] theorem State.withCompletionOf_inEos (s : State) (t : State) : (s.withCompletionOf t).inEos = s.inEos := rfl
@[simp] theorem State.withCompletionOf_done (s : State) (t : State) : (s.withCompletionOf t).done = t.done := rfl
@[simp] theorem State.withCompletionOf_err (s : State) (t : State) : (s.withCompletionOf t).err = t.err := rfl
@[simp] theorem State.withCompletionOf_cmdOvr (s : State) (t : State) : (s.withCompletionOf t).cmdOvr = s.cmdOvr := rfl
@[simp] theorem State.withCompletionOf_inOvr (s : State) (t : State) : (s.withCompletionOf t).inOvr = s.inOvr := rfl
@[simp] theorem State.withCompletionOf_treeValid (s : State) (t : State) : (s.withCompletionOf t).treeValid = s.treeValid := rfl
@[simp] theorem State.withCompletionOf_codesValid (s : State) (t : State) : (s.withCompletionOf t).codesValid = s.codesValid := rfl
@[simp] theorem State.withCompletionOf_encActive (s : State) (t : State) : (s.withCompletionOf t).encActive = s.encActive := rfl
@[simp] theorem State.withCompletionOf_decActive (s : State) (t : State) : (s.withCompletionOf t).decActive = s.decActive := rfl
@[simp] theorem State.withCompletionOf_treeEmpty (s : State) (t : State) : (s.withCompletionOf t).treeEmpty = s.treeEmpty := rfl
@[simp] theorem State.withCompletionOf_treeSingle (s : State) (t : State) : (s.withCompletionOf t).treeSingle = s.treeSingle := rfl
@[simp] theorem State.withCompletionOf_cc (s : State) (t : State) : (s.withCompletionOf t).cc = t.cc := rfl
@[simp] theorem State.withCompletionOf_firstErr (s : State) (t : State) : (s.withCompletionOf t).firstErr = t.firstErr := rfl
@[simp] theorem State.withCompletionOf_cmd (s : State) (t : State) : (s.withCompletionOf t).cmd = s.cmd := rfl
@[simp] theorem State.withCompletionOf_arg (s : State) (t : State) : (s.withCompletionOf t).arg = s.arg := rfl
@[simp] theorem State.withCompletionOf_result0 (s : State) (t : State) : (s.withCompletionOf t).result0 = t.result0 := rfl
@[simp] theorem State.withCompletionOf_result1 (s : State) (t : State) : (s.withCompletionOf t).result1 = t.result1 := rfl
@[simp] theorem State.withCompletionOf_total (s : State) (t : State) : (s.withCompletionOf t).total = s.total := rfl
@[simp] theorem State.withCompletionOf_decRem (s : State) (t : State) : (s.withCompletionOf t).decRem = s.decRem := rfl
@[simp] theorem State.withCompletionOf_nleaf (s : State) (t : State) : (s.withCompletionOf t).nleaf = s.nleaf := rfl
@[simp] theorem State.withCompletionOf_pending (s : State) (t : State) : (s.withCompletionOf t).pending = t.pending := rfl
@[simp] theorem State.withCompletionOf_freq (s : State) (t : State) : (s.withCompletionOf t).freq = s.freq := rfl
@[simp] theorem State.withCompletionOf_node (s : State) (t : State) : (s.withCompletionOf t).node = s.node := rfl
@[simp] theorem State.withCompletionOf_root (s : State) (t : State) : (s.withCompletionOf t).root = s.root := rfl
@[simp] theorem State.withCompletionOf_code (s : State) (t : State) : (s.withCompletionOf t).code = s.code := rfl
@[simp] theorem State.withCompletionOf_leafOrd (s : State) (t : State) : (s.withCompletionOf t).leafOrd = s.leafOrd := rfl
@[simp] theorem State.withCompletionOf_pend (s : State) (t : State) : (s.withCompletionOf t).pend = s.pend := rfl
@[simp] theorem State.withCompletionOf_resid (s : State) (t : State) : (s.withCompletionOf t).resid = s.resid := rfl
@[simp] theorem State.withCompletionOf_inq (s : State) (t : State) : (s.withCompletionOf t).inq = s.inq := rfl
@[simp] theorem State.withCompletionOf_outq (s : State) (t : State) : (s.withCompletionOf t).outq = s.outq := rfl
@[simp] theorem State.withCompletionOf_inDepth (s : State) (t : State) : (s.withCompletionOf t).inDepth = s.inDepth := rfl
@[simp] theorem State.withCompletionOf_outDepth (s : State) (t : State) : (s.withCompletionOf t).outDepth = s.outDepth := rfl
@[simp] theorem State.withCompletionOf_rst (s : State) (t : State) : (s.withCompletionOf t).rst = s.rst := rfl
@[simp] theorem State.withCompletionOf_schedule (s : State) (t : State) : (s.withCompletionOf t).schedule = s.schedule := rfl
@[simp] theorem State.withCompletionOf_readLanes (s : State) (t : State) : (s.withCompletionOf t).readLanes = s.readLanes := rfl
@[simp] theorem State.withCompletionOf_freeCount (s : State) (t : State) : (s.withCompletionOf t).freeCount = s.freeCount := rfl

end Sys2Proof.Machine
end

