-- ==== Sys2Proof/Laws/Bits.lean ====
section
/-! SUPPORT. Laws of bit strings, their packing into bytes and words, byte lanes, and symbol tables. -/

namespace Sys2Proof.Machine

/-! ### Symbol tables -/

@[simp] theorem symEntry_setSymEntry_self {α : Type} (t : Vector α 256) (s : Byte) (a : α) :
    symEntry (setSymEntry t s a) s = a := by
  simp [symEntry, setSymEntry]

theorem symEntry_setSymEntry_ne {α : Type} (t : Vector α 256) {s s' : Byte} (a : α) (h : s' ≠ s) :
    symEntry (setSymEntry t s a) s' = symEntry t s' := by
  have h' : s.toNat ≠ s'.toNat := fun e => h (BitVec.eq_of_toNat_eq e.symm)
  simp [symEntry, setSymEntry, h']

theorem symEntry_setSymEntry {α : Type} (t : Vector α 256) (s s' : Byte) (a : α) :
    symEntry (setSymEntry t s a) s' = if s' = s then a else symEntry t s' := by
  by_cases h : s' = s
  · subst h; simp
  · simp [h, symEntry_setSymEntry_ne t a h]

@[simp] theorem symEntry_replicate {α : Type} (a : α) (s : Byte) :
    symEntry (Vector.replicate 256 a) s = a := by
  simp [symEntry]

@[simp] theorem mem_allSymbols (s : Byte) : s ∈ allSymbols := by
  simp only [allSymbols, List.mem_map, List.mem_range]
  exact ⟨s.toNat, s.isLt, by simp⟩

/-! ### Bit strings -/

@[simp] theorem length_msbBits {w : Nat} (v : BitVec w) (n : Nat) : (msbBits v n).length = n := by
  simp [msbBits]

theorem getElem_msbBits {w : Nat} (v : BitVec w) (n j : Nat) (h : j < (msbBits v n).length) :
    (msbBits v n)[j] = v.getLsbD (w - 1 - j) := by
  simp [msbBits]

@[simp] theorem length_bitsOfByte (b : Byte) : (bitsOfByte b).length = 8 := by
  simp [bitsOfByte]

@[simp] theorem length_flatMap_bitsOfByte (q : List Byte) :
    (q.flatMap bitsOfByte).length = 8 * q.length := by
  induction q with
  | nil => rfl
  | cons b q ih => simp [ih]; omega

/-- A byte's first bit is bit 7; the rest follow (43_bit_buffer.md R154). -/
theorem bitsOfByte_cons (b : Byte) : bitsOfByte b = b.getLsbD 7 :: (bitsOfByte b).tail := by
  simp [bitsOfByte, msbBits, List.range_succ]

theorem packMsb_lt (w : Nat) (p : BitString) (h : p.length ≤ w) : packMsb w p < 2 ^ w := by
  induction p generalizing w with
  | nil => simp [packMsb]
  | cons b p ih =>
    obtain ⟨w, rfl⟩ : ∃ v, w = v + 1 := ⟨w - 1, by simp at h; omega⟩
    have := ih w (by simpa using h)
    simp only [packMsb, Nat.add_sub_cancel]
    have hb : b.toNat ≤ 1 := by cases b <;> simp
    have := Nat.mul_le_mul_right (2 ^ w) hb
    rw [Nat.pow_succ]; omega

/-- Bit `w - 1 - j` of a packed string is its j-th bit, and 0 past its end (43_bit_buffer.md R152). -/
theorem testBit_packMsb (w j : Nat) (p : BitString) (h : p.length ≤ w) (hj : j < w) :
    (packMsb w p).testBit (w - 1 - j) = p.getD j false := by
  induction p generalizing w j with
  | nil => simp [packMsb]
  | cons b p ih =>
    obtain ⟨w, rfl⟩ : ∃ v, w = v + 1 := ⟨w - 1, by omega⟩
    have hp : p.length ≤ w := by simpa using h
    have hlt := packMsb_lt w p hp
    simp only [packMsb, Nat.add_sub_cancel]
    rw [Nat.mul_comm, Nat.testBit_two_pow_mul_add _ hlt]
    cases j with
    | zero => cases b <;> simp
    | succ j =>
      have hj' : j < w := by omega
      have e : w - (j + 1) = w - 1 - j := by omega
      rw [e, if_pos (by omega)]
      simpa using ih w j hp hj'

/-- A full byte's bits are the string it packs (43_bit_buffer.md R152); a shorter one is zero-padded in
the low-order positions (R153). -/
theorem bitsOfByte_byteOfBits (q : BitString) (h : q.length ≤ 8) :
    bitsOfByte (byteOfBits q) = q ++ List.replicate (8 - q.length) false := by
  apply List.ext_getElem
  · simp; omega
  · intro j h1 h2
    have hj : j < 8 := by simpa using h1
    have ht := testBit_packMsb 8 j q h hj
    refine (getElem_msbBits (byteOfBits q) 8 j h1).trans ?_
    rw [byteOfBits, BitVec.getLsbD_ofNat, ht]
    by_cases hq : j < q.length
    · simp [hq]; omega
    · simp [hq, List.getElem_append]

/-- Bit `31 - j` of word w of a code is its bit `32·w + j`, and 0 past its end (42_code_table.md R138). -/
theorem getLsbD_codeWord (p : BitString) (w j : Nat) (hj : j < 32) :
    (codeWord p w).getLsbD (31 - j) = p.getD (32 * w + j) false := by
  have ht := testBit_packMsb 32 j ((p.drop (32 * w)).take 32) (by simp) hj
  rw [codeWord, BitVec.getLsbD_ofNat, show 31 - j = 32 - 1 - j by omega, ht]
  simp [hj, List.getElem?_drop]
  omega

/-! ### Byte lanes -/

/-- Assembling the lanes of a word gives the word (20_memory.md R73). -/
theorem wordOfLanes_lanesOfWord (v : Word) : wordOfLanes (lanesOfWord v) = v := by
  apply BitVec.eq_of_getLsbD_eq
  intro i hi
  simp only [wordOfLanes, lanesOfWord, List.range_succ, List.range_zero, List.nil_append,
    List.map_cons, List.map_nil, List.cons_append, List.foldr_cons, List.foldr_nil, BitVec.getLsbD_or,
    BitVec.getLsbD_shiftLeft, BitVec.getLsbD_setWidth, BitVec.getLsbD_extractLsb']
  interval_cases i <;> simp

@[simp] theorem length_lanesOfWord (v : Word) : (lanesOfWord v).length = 4 := by
  simp [lanesOfWord]

end Sys2Proof.Machine
end

