-- ==== Sys2Proof/Laws/BitBuffer.lean ====
section
/-! SUPPORT. What the bit buffer's operations do, said once for each: PushBits, FlushBits, NextBit and its
repetition (43_bit_buffer.md R150 to R155). -/

namespace Sys2Proof.Machine

/-! ### PushBits -/

/-- One pushed bit touches the pending bits and the OUT FIFO only. -/
theorem pushBit_frame (s : State) (x : Bool) :
    s.pushBit x = { s with pend := (s.pushBit x).pend, outq := (s.pushBit x).outq } := by
  unfold State.pushBit State.emit
  split <;> rfl

theorem pushBit_pend_length (s : State) (x : Bool) (h : s.pend.length ≤ 7) :
    (s.pushBit x).pend.length = (s.pend.length + 1) % 8 := by
  unfold State.pushBit
  split
  · rename_i h8; simp at h8; simp [h8]
  · rename_i h8; simp at h8; simp; omega

theorem pushBit_outq_length (s : State) (x : Bool) (h : s.pend.length ≤ 7) :
    (s.pushBit x).outq.length = s.outq.length + (s.pend.length + 1) / 8 := by
  unfold State.pushBit
  split
  · rename_i h8; simp at h8; simp [h8]
  · rename_i h8; simp at h8; simp; omega

/-- No bit is lost: what has been written grows by the pushed bit. -/
theorem pushBit_writtenBits (s : State) (x : Bool) :
    (s.pushBit x).writtenBits = s.writtenBits ++ [x] := by
  unfold State.pushBit State.writtenBits
  split
  · rename_i h8
    have := bitsOfByte_byteOfBits (s.pend ++ [x]) (by omega)
    simp [this, h8]
  · simp

theorem pushBit_outq_prefix (s : State) (x : Bool) : s.outq <+: (s.pushBit x).outq := by
  unfold State.pushBit
  split
  · simp
  · exact List.prefix_refl _

@[simp] theorem pushBits_nil (s : State) : s.pushBits [] = s := rfl

@[simp] theorem pushBits_cons (s : State) (x : Bool) (p : BitString) :
    s.pushBits (x :: p) = (s.pushBit x).pushBits p := rfl

/-- PushBits touches the pending bits and the OUT FIFO only (43_bit_buffer.md R150, R156). -/
theorem pushBits_frame (p : BitString) (s : State) :
    s.pushBits p = { s with pend := (s.pushBits p).pend, outq := (s.pushBits p).outq } := by
  induction p generalizing s with
  | nil => rfl
  | cons x p ih =>
    have h1 := ih (s.pushBit x)
    have h2 := pushBit_frame s x
    rw [pushBits_cons, h1]
    generalize (s.pushBit x).pushBits p = t
    rw [h2]

/-- PushBits leaves `(|pend| + |p|) mod 8` bits pending (43_bit_buffer.md R151). -/
theorem pushBits_pend_length (p : BitString) (s : State) (h : s.pend.length ≤ 7) :
    (s.pushBits p).pend.length = (s.pend.length + p.length) % 8 := by
  induction p generalizing s with
  | nil => simp; omega
  | cons x p ih =>
    have h1 := pushBit_pend_length s x h
    rw [pushBits_cons, ih _ (by omega), h1, List.length_cons]
    omega

/-- PushBits emits exactly `⌊(|pend| + |p|)/8⌋` bytes (43_bit_buffer.md R151). -/
theorem pushBits_outq_length (p : BitString) (s : State) (h : s.pend.length ≤ 7) :
    (s.pushBits p).outq.length = s.outq.length + (s.pend.length + p.length) / 8 := by
  induction p generalizing s with
  | nil => simp; omega
  | cons x p ih =>
    have h1 := pushBit_pend_length s x h
    have h2 := pushBit_outq_length s x h
    rw [pushBits_cons, ih _ (by omega), h1, h2, List.length_cons]
    omega

/-- PushBits appends its bits to what has been written; none is lost (43_bit_buffer.md R150, R151). -/
theorem pushBits_writtenBits (p : BitString) (s : State) :
    (s.pushBits p).writtenBits = s.writtenBits ++ p := by
  induction p generalizing s with
  | nil => simp
  | cons x p ih => rw [pushBits_cons, ih, pushBit_writtenBits]; simp

/-- The bytes already in the OUT FIFO stay where they are (20_memory.md R88). -/
theorem pushBits_outq_prefix (p : BitString) (s : State) : s.outq <+: (s.pushBits p).outq := by
  induction p generalizing s with
  | nil => exact List.prefix_refl _
  | cons x p ih => exact (pushBit_outq_prefix s x).trans (ih _)

/-! ### FlushBits -/

theorem flushBits_frame (s : State) :
    s.flushBits = { s with pend := [], outq := s.flushBits.outq } := by
  unfold State.flushBits State.emit
  split
  · rfl
  · rename_i h
    have : s.pend = [] := List.eq_nil_of_length_eq_zero (by omega)
    cases s; simp_all

/-- FlushBits emits the pending bits padded with zeros to a byte, and nothing where none are pending
(43_bit_buffer.md R153). -/
theorem flushBits_outq (s : State) :
    s.flushBits.outq = if 0 < s.pend.length then s.outq ++ [byteOfBits s.pend] else s.outq := by
  unfold State.flushBits
  split <;> rfl

/-! ### NextBit -/

/-- No bit is available exactly when the residual bits and the IN FIFO are empty
(43_bit_buffer.md R155). -/
theorem avail_eq_nil {s : State} : s.avail = [] ↔ s.resid = [] ∧ s.inq = [] := by
  unfold State.avail
  cases s.inq with
  | nil => simp
  | cons b q =>
    rw [List.flatMap_cons, bitsOfByte_cons]
    simp

/-- `|Avail| = |resid| + 8·|inq|` (43_bit_buffer.md R155). -/
theorem length_avail (s : State) : s.avail.length = s.resid.length + 8 * s.inq.length := by
  rw [State.avail, List.length_append, length_flatMap_bitsOfByte]

/-- The hold table's lack of room is the absence of the room the rules wait for (46_system.md R198). -/
theorem lacksRoom_eq_not_outRoom (s : State) (k : Nat) : lacksRoom s k = !s.outRoom k := by
  simp only [lacksRoom, State.outRoom, ← decide_not, Nat.not_le]

/-- With a bit available NextBit returns the first bit of Avail and leaves the rest
(43_bit_buffer.md R154, R155). -/
theorem nextBit_avail {s : State} {x : Bool} {rest : BitString} (h : s.avail = x :: rest) :
    ∃ t, s.nextBit = .bit x t ∧ t.avail = rest
      ∧ t = { s with resid := t.resid, inq := t.inq }
      ∧ (s.resid.length ≤ 8 → t.resid.length ≤ 8) ∧ t.inq.length ≤ s.inq.length := by
  unfold State.avail at h
  unfold State.nextBit
  cases hr : s.resid with
  | cons y resid =>
    rw [hr] at h
    simp only [List.cons_append, List.cons.injEq] at h
    obtain ⟨rfl, rfl⟩ := h
    exact ⟨_, rfl, rfl, rfl, by simp; omega, le_refl _⟩
  | nil =>
    cases hi : s.inq with
    | cons b inq =>
      rw [hr, hi, List.nil_append, List.flatMap_cons, bitsOfByte_cons] at h
      simp only [List.cons_append, List.cons.injEq] at h
      obtain ⟨rfl, rfl⟩ := h
      exact ⟨_, rfl, rfl, rfl, by simp, by simp⟩
    | nil => simp [hr, hi] at h

/-- With no bit available NextBit returns EXHAUSTED or WAIT (43_bit_buffer.md R154). -/
theorem nextBit_none {s : State} (h : s.avail = []) :
    s.nextBit = if s.inEos then .exhausted else .wait := by
  unfold State.avail at h
  unfold State.nextBit
  simp only [List.append_eq_nil_iff] at h
  obtain ⟨hr, hi⟩ := h
  cases hq : s.inq with
  | nil => simp [hr]
  | cons b q =>
    rw [hq] at hi
    simp only [List.flatMap_cons, List.append_eq_nil_iff] at hi
    have := length_bitsOfByte b
    rw [hi.1] at this
    simp at this

/-- With no bit available there is nothing to consume. -/
theorem consumeBits_none {s : State} (h : s.avail = []) (k : Nat) : s.consumeBits k = s := by
  cases k with
  | zero => rfl
  | succ k => cases he : s.inEos <;> simp [State.consumeBits, nextBit_none h, he]

/-- Consuming k available bits drops the first k bits of Avail (43_bit_buffer.md R155). -/
theorem consumeBits_avail (k : Nat) (s : State) (h : k ≤ s.avail.length) :
    (s.consumeBits k).avail = s.avail.drop k := by
  induction k generalizing s with
  | zero => rfl
  | succ k ih =>
    cases ha : s.avail with
    | nil => simp [ha] at h
    | cons x rest =>
      obtain ⟨t, ht, hat, -⟩ := nextBit_avail ha
      simp only [State.consumeBits, ht, List.drop_succ_cons]
      rw [ih t (by rw [hat]; simp [ha] at h; omega), hat]

/-- Consuming bits touches the read side and the IN FIFO only (43_bit_buffer.md R156). -/
theorem consumeBits_frame (k : Nat) (s : State) :
    s.consumeBits k = { s with resid := (s.consumeBits k).resid, inq := (s.consumeBits k).inq } := by
  induction k generalizing s with
  | zero => rfl
  | succ k ih =>
    cases ha : s.avail with
    | nil => rw [consumeBits_none ha]
    | cons x rest =>
      obtain ⟨t, ht, -, hf, -⟩ := nextBit_avail ha
      simp only [State.consumeBits, ht]
      rw [ih t]
      generalize t.consumeBits k = u
      rw [hf]

/-- Consuming bits never lengthens the IN FIFO, and leaves at most 8 residual bits
(10_state.md R56, R57). -/
theorem consumeBits_bounds (k : Nat) (s : State) (h : s.resid.length ≤ 8) :
    (s.consumeBits k).resid.length ≤ 8 ∧ (s.consumeBits k).inq.length ≤ s.inq.length := by
  induction k generalizing s with
  | zero => exact ⟨h, le_refl _⟩
  | succ k ih =>
    cases ha : s.avail with
    | nil => rw [consumeBits_none ha]; exact ⟨h, le_refl _⟩
    | cons x rest =>
      obtain ⟨t, ht, -, -, hr, hi⟩ := nextBit_avail ha
      simp only [State.consumeBits, ht]
      exact ⟨(ih t (hr h)).1, (ih t (hr h)).2.trans hi⟩

/-- NextBit fetches a byte only where no residual bit is left (43_bit_buffer.md R154). -/
theorem nextBit_inq {s t : State} {x : Bool} (h : s.nextBit = .bit x t) :
    t.inq = s.inq.drop (if s.resid = [] then 1 else 0)
      ∧ t.resid.length = if s.resid = [] then 7 else s.resid.length - 1 := by
  unfold State.nextBit at h
  split at h
  · rename_i y resid hr
    cases h
    simp [hr]
  · rename_i b inq hr hq
    cases h
    simp [hr, hq]
  · split at h <;> cases h

/-- Consuming k available bits fetches `max(0, ⌈(k − |resid|)/8⌉)` bytes (43_bit_buffer.md R155). -/
theorem consumeBits_inq (k : Nat) (s : State) (h : k ≤ s.avail.length) :
    (s.consumeBits k).inq = s.inq.drop ((k - s.resid.length + 7) / 8) := by
  induction k generalizing s with
  | zero => simp [State.consumeBits]
  | succ k ih =>
    cases ha : s.avail with
    | nil => simp [ha] at h
    | cons x rest =>
      obtain ⟨t, ht, hat, -⟩ := nextBit_avail ha
      obtain ⟨hi, hr⟩ := nextBit_inq ht
      simp only [State.consumeBits, ht]
      rw [ih t (by rw [hat]; simp [ha] at h; omega), hi, hr, List.drop_drop]
      congr 1
      split
      · rename_i he; simp only [he, List.length_nil]; omega
      · rename_i he
        have := List.length_pos_iff.2 he
        omega

end Sys2Proof.Machine
end

