-- ==== Sys2Proof/Laws/Tree.lean ====
section
/-! SUPPORT. Laws of the node arena, of the descent (45_decode.md R181), and of the merge queue
(41_tree_builder.md R120, R121). -/

namespace Sys2Proof.Machine

/-! ### The arena -/

@[simp] theorem nodeIdOf_val (i : NodeId) : nodeIdOf i.val = i := by
  simp [nodeIdOf]

theorem val_nodeIdOf {n : Nat} (h : n < 511) : (nodeIdOf n).val = n := by
  simp [nodeIdOf, Fin.ofNat, Nat.mod_eq_of_lt h]

theorem setNode_self (node : Arena) {n : Nat} (v : Node) (h : n < 511) :
    (setNode node n v)[nodeIdOf n] = v := by
  simp [setNode, h, val_nodeIdOf h]

theorem setNode_ne (node : Arena) {n : Nat} (v : Node) (i : NodeId) (h : i.val ≠ n) :
    (setNode node n v)[i] = node[i] := by
  unfold setNode
  split
  · simp [h.symm]
  · rfl

/-! ### The frequency table -/

/-- The sum over the present symbols is the sum over the whole table (41_tree_builder.md R120). -/
theorem frequencySum_eq_freqTotal (freq : Vector Word 256) : frequencySum freq = freqTotal freq := by
  unfold frequencySum freqTotal presentSymbols
  induction allSymbols with
  | nil => rfl
  | cons sym rest ih =>
    rw [List.filter_cons, List.map_cons, List.sum_cons, ← ih]
    split
    · simp
    · rename_i h
      have : symEntry freq sym = 0 := by simpa using h
      simp [this]

/-- BUILD's N is the number of entries that are not 0 (41_tree_builder.md R120). -/
theorem length_presentSymbols (freq : Vector Word 256) :
    (presentSymbols freq).length = alphabetSize freq := by
  unfold presentSymbols alphabetSize
  rw [← List.countP_eq_length_filter]
  congr 1
  funext sym
  rw [Bool.eq_iff_iff]
  simp

theorem alphabetSize_le (freq : Vector Word 256) : alphabetSize freq ≤ 256 := by
  unfold alphabetSize
  exact List.countP_le_length.trans (by simp [allSymbols])

/-! ### Descend -/

/-- The leaf that Descend reaches carries the symbol it answers, and it uses no more bits than there
are (45_decode.md R181). -/
theorem descend_leaf {node : Arena} {n m : NodeId} {a : BitString} {k : Nat} {sym : Byte}
    (h : descend node n a = some (k, m, sym)) : (∃ f, node[m] = .leaf sym f) ∧ k ≤ a.length := by
  induction a generalizing n k with
  | nil =>
    unfold descend at h
    split at h
    · rename_i s f hn
      simp only [Option.some.injEq, Prod.mk.injEq] at h
      obtain ⟨rfl, rfl, rfl⟩ := h
      exact ⟨⟨f, hn⟩, le_refl _⟩
    · cases h
  | cons x a ih =>
    unfold descend at h
    split at h
    · rename_i s f hn
      simp only [Option.some.injEq, Prod.mk.injEq] at h
      obtain ⟨rfl, rfl, rfl⟩ := h
      exact ⟨⟨f, hn⟩, Nat.zero_le _⟩
    · simp only [Option.map_eq_some_iff] at h
      obtain ⟨⟨k', m', s'⟩, hd, he⟩ := h
      simp only [Prod.mk.injEq] at he
      obtain ⟨rfl, rfl, rfl⟩ := he
      have := ih hd
      exact ⟨this.1, by simp; exact this.2⟩

/-- Descend stops at the leaf: bits after the ones it used do not matter (45_decode.md R181). -/
theorem descend_append {node : Arena} {n m : NodeId} {a : BitString} {k : Nat} {sym : Byte}
    (h : descend node n a = some (k, m, sym)) (b : BitString) :
    descend node n (a ++ b) = some (k, m, sym) := by
  induction a generalizing n k with
  | nil =>
    unfold descend at h
    split at h
    · rename_i hn
      cases b <;> simp [descend, hn] <;> simpa using h
    · cases h
  | cons x a ih =>
    unfold descend at h
    rw [List.cons_append]
    unfold descend
    split at h
    · simpa using h
    · simp only [Option.map_eq_some_iff] at h ⊢
      obtain ⟨⟨k', m', s'⟩, hd, he⟩ := h
      simp only [Prod.mk.injEq] at he
      obtain ⟨rfl, rfl, rfl⟩ := he
      exact ⟨_, ih hd, rfl⟩

/-- A single-leaf tree needs no bit (45_decode.md R184). -/
theorem descend_at_leaf {node : Arena} {n : NodeId} {sym : Byte} {f : Word}
    (h : node[n] = .leaf sym f) (a : BitString) : descend node n a = some (0, n, sym) := by
  cases a <;> simp [descend, h]

/-! ### The merge queue -/

/-- The least key is that of an element of the queue. -/
theorem leastKey_mem (node : Arena) (q : NodeId) (rest : List NodeId) :
    leastKey node q rest ∈ q :: rest := by
  unfold leastKey
  induction rest generalizing q with
  | nil => simp
  | cons r rest ih =>
    simp only [List.foldl_cons]
    split
    · exact List.mem_cons_of_mem _ (ih r)
    · rcases List.mem_cons.mp (ih q) with h | h
      · rw [h]; simp
      · exact List.mem_cons_of_mem _ (List.mem_cons_of_mem _ h)

/-- An extraction takes an element out of the queue (41_tree_builder.md R120). -/
theorem extractLeast_some {node : Arena} {queue rest : List NodeId} {n : NodeId}
    (h : extractLeast node queue = some (n, rest)) : n ∈ queue ∧ rest = queue.erase n := by
  cases queue with
  | nil => simp [extractLeast] at h
  | cons q qs =>
    simp only [extractLeast, Option.some.injEq, Prod.mk.injEq] at h
    obtain ⟨rfl, rfl⟩ := h
    exact ⟨leastKey_mem node q qs, rfl⟩

theorem extractLeast_none {node : Arena} {queue : List NodeId} :
    extractLeast node queue = none ↔ queue = [] := by
  cases queue <;> simp [extractLeast]

/-- The keys are a strict order: `(freq, id)` lexicographically (41_tree_builder.md R121). -/
theorem keyLess_iff (node : Arena) (a b : NodeId) :
    keyLess node a b = true ↔
      node[a].freq.toNat < node[b].freq.toNat ∨
        (node[a].freq.toNat = node[b].freq.toNat ∧ a < b) := by
  simp [keyLess]

theorem keyLess_trans {node : Arena} {a b c : NodeId} (h1 : keyLess node a b = true)
    (h2 : keyLess node b c = true) : keyLess node a c = true := by
  rw [keyLess_iff] at *
  rcases h1 with h1 | ⟨h1, h1'⟩ <;> rcases h2 with h2 | ⟨h2, h2'⟩
  · exact .inl (h1.trans h2)
  · exact .inl (h2 ▸ h1)
  · exact .inl (h1 ▸ h2)
  · exact .inr ⟨h1.trans h2, h1'.trans h2'⟩

theorem keyLess_total (node : Arena) {a b : NodeId} (h : a ≠ b) (hn : ¬ keyLess node a b = true) :
    keyLess node b a = true := by
  rw [keyLess_iff] at *
  rcases lt_trichotomy (node[a].freq.toNat) (node[b].freq.toNat) with hf | hf | hf
  · exact absurd (.inl hf) hn
  · exact .inr ⟨hf.symm, lt_of_le_of_ne (not_lt.mp fun hl => hn (.inr ⟨hf, hl⟩)) h.symm⟩
  · exact .inl hf

/-- No element of the queue has a smaller key than the one extracted (41_tree_builder.md R121). -/
theorem leastKey_le (node : Arena) (q : NodeId) (rest : List NodeId) :
    ∀ n ∈ q :: rest, ¬ keyLess node n (leastKey node q rest) = true := by
  unfold leastKey
  induction rest generalizing q with
  | nil => intro n hn; simp at hn; subst hn; simp [keyLess_iff]
  | cons r rest ih =>
    intro n hn
    simp only [List.foldl_cons]
    split
    · rename_i hr
      rcases List.mem_cons.mp hn with rfl | hn
      · intro hc
        exact ih r r (by simp) (keyLess_trans hr hc)
      · exact ih r n hn
    · rename_i hr
      rcases List.mem_cons.mp hn with rfl | hn
      · exact ih n n (by simp)
      · rcases List.mem_cons.mp hn with rfl | hn
        · intro hc
          by_cases hq : n = q
          · subst hq; exact ih n n (by simp) hc
          · exact ih q q (by simp) (keyLess_trans (keyLess_total node hq hr) hc)
        · exact ih q n (List.mem_cons_of_mem _ hn)

/-- The extracted node has the least key: below the key of every other element of the queue
(41_tree_builder.md R121). -/
theorem extractLeast_least {node : Arena} {queue rest : List NodeId} {n c : NodeId}
    (h : extractLeast node queue = some (n, rest)) (hc : c ∈ queue) (hne : c ≠ n) :
    keyLess node n c = true := by
  cases queue with
  | nil => cases hc
  | cons q qs =>
    simp only [extractLeast, Option.some.injEq, Prod.mk.injEq] at h
    obtain ⟨rfl, -⟩ := h
    exact keyLess_total node hne (leastKey_le node q qs c hc)

/-- The key order as the statements write it. -/
theorem keyBelow_iff (node : Arena) (a b : NodeId) : keyBelow node a b ↔ keyLess node a b = true :=
  (keyLess_iff node a b).symm

end Sys2Proof.Machine
end

