-- ==== Sys2Proof/Laws/Merge.lean ====
section
/-! SUPPORT. The invariant of BUILD's merge loop and what the loop leaves behind
(41_tree_builder.md R120 to R123, R125, R128). -/

namespace Sys2Proof.Machine

/-- What holds at each turn of the merge loop over `n` leaves seeded in `seed`: ids below `next` are made,
the queue holds the made nodes that have no parent yet, each other one has exactly one parent, every
merge sums two lower nodes, the two least keys of the nodes without a parent with the lower on the left,
and the queue's frequencies sum to `sum`. -/
structure MergeInv (seed : Arena) (n sum : Nat) (node : Arena) (queue : List NodeId) (next : Nat) : Prop where
  count : n ≤ 256
  fits : sum < 2 ^ 32
  size : next + queue.length = 2 * n
  made : n ≤ next
  nodup : queue.Nodup
  bound : ∀ q ∈ queue, q.val < next
  leaves : ∀ i : NodeId, i.val < n → node[i] = seed[i]
  merges : ∀ i : NodeId, n ≤ i.val → i.val < next → isMergeNode node i = true
  ordered : ∀ (i : NodeId) (f : Word) (l r : NodeId), n ≤ i.val → i.val < next →
    node[i] = .internal f l r → keyLess node l r = true
  least : ∀ (i : NodeId) (f : Word) (l r c : NodeId), n ≤ i.val → i.val < next →
    node[i] = .internal f l r → c < i → c ≠ l → c ≠ r →
    (∀ j : NodeId, j < i → node[j].hasChild c = false) → keyLess node r c = true
  orphan : ∀ c ∈ queue, ∀ j : NodeId, n ≤ j.val → j.val < next → node[j].hasChild c = false
  parent : ∀ c : NodeId, c.val < next → c ∉ queue →
    ∃ i : NodeId, (n ≤ i.val ∧ i.val < next ∧ node[i].hasChild c = true) ∧
      ∀ j : NodeId, n ≤ j.val → j.val < next → node[j].hasChild c = true → j = i
  total : (queue.map fun q => node[q].freq.toNat).sum = sum

theorem isMergeNode_iff {node : Arena} {i : NodeId} :
    isMergeNode node i = true ↔ ∃ f l r, node[i] = .internal f l r ∧ l < i ∧ r < i ∧ l ≠ r
      ∧ f.toNat = node[l].freq.toNat + node[r].freq.toNat := by
  unfold isMergeNode
  cases h : node[i] with
  | leaf sym f => simp
  | internal f l r =>
    simp only [Node.internal.injEq, Bool.and_eq_true, decide_eq_true_eq]
    constructor
    · rintro ⟨⟨⟨h1, h2⟩, h3⟩, h4⟩
      exact ⟨f, l, r, ⟨rfl, rfl, rfl⟩, h1, h2, h3, h4⟩
    · rintro ⟨_, _, _, ⟨rfl, rfl, rfl⟩, h1, h2, h3, h4⟩
      exact ⟨⟨⟨h1, h2⟩, h3⟩, h4⟩

/-- One turn of the loop keeps its invariant. -/
theorem mergeInv_merge {seed node : Arena} {n sum next : Nat} {queue queue1 queue2 : List NodeId}
    {a b : NodeId} (h : MergeInv seed n sum node queue next)
    (ha : extractLeast node queue = some (a, queue1))
    (hb : extractLeast node queue1 = some (b, queue2)) :
    MergeInv seed n sum (setNode node next (.internal (node[a].freq + node[b].freq) a b))
      (queue2 ++ [nodeIdOf next]) (next + 1) := by
  obtain ⟨haq, rfl⟩ := extractLeast_some ha
  obtain ⟨hbq, rfl⟩ := extractLeast_some hb
  have hbq' : b ∈ queue := List.mem_of_mem_erase hbq
  have hab : a ≠ b := fun e => by subst e; exact (h.nodup.not_mem_erase) hbq
  have hlen1 : (queue.erase a).length = queue.length - 1 := List.length_erase_of_mem haq
  have hlen2 : ((queue.erase a).erase b).length = queue.length - 2 := by
    rw [List.length_erase_of_mem hbq, hlen1]; omega
  have hq2 : 2 ≤ queue.length := by
    have h1 := List.length_pos_of_mem haq
    have h2 := List.length_pos_of_mem hbq
    omega
  have hn511 : next < 511 := by have := h.size; have := h.count; omega
  have haN := h.bound a haq
  have hbN := h.bound b hbq'
  have hnd1 : (queue.erase a).Nodup := h.nodup.erase a
  have hnd2 : ((queue.erase a).erase b).Nodup := hnd1.erase b
  have mem2 : ∀ c, c ∈ (queue.erase a).erase b ↔ c ∈ queue ∧ c ≠ a ∧ c ≠ b := by
    intro c
    rw [hnd1.mem_erase_iff, h.nodup.mem_erase_iff]
    tauto
  have hsum : node[a].freq.toNat + node[b].freq.toNat
      + (((queue.erase a).erase b).map fun q => node[q].freq.toNat).sum = sum := by
    rw [← h.total]
    have p1 := (List.perm_cons_erase haq).map fun q : NodeId => node[q].freq.toNat
    have p2 := (List.perm_cons_erase hbq).map fun q : NodeId => node[q].freq.toNat
    have e1 := p1.sum_eq
    have e2 := p2.sum_eq
    simp only [List.map_cons, List.sum_cons] at e1 e2
    omega
  have hadd : (node[a].freq + node[b].freq).toNat = node[a].freq.toNat + node[b].freq.toNat := by
    have := h.fits
    rw [BitVec.toNat_add, Nat.mod_eq_of_lt (by omega)]
  have old : ∀ (i : NodeId) (v : Node), i.val < next → (setNode node next v)[i] = node[i] :=
    fun i v hi => setNode_ne node v i (by omega)
  have new : ∀ v, (setNode node next v)[nodeIdOf next] = v := fun v => setNode_self node v hn511
  have isNew : ∀ i : NodeId, i.val < next + 1 → ¬ i.val < next → i = nodeIdOf next := by
    intro i h1 h2
    apply Fin.ext
    rw [val_nodeIdOf hn511]; omega
  generalize hv : Node.internal (node[a].freq + node[b].freq) a b = v
  have keys : ∀ x y : NodeId, x.val < next → y.val < next →
      keyLess (setNode node next v) x y = keyLess node x y := by
    intro x y hx hy
    unfold keyLess
    rw [old x v hx, old y v hy]
  have childNew : ∀ c, v.hasChild c = true ↔ c = a ∨ c = b := by
    intro c
    subst hv
    simp only [Node.hasChild, Bool.or_eq_true, beq_iff_eq]
    constructor <;> rintro (h | h) <;> simp [h]
  refine ⟨h.count, h.fits, ?_, by have := h.made; omega, ?_, ?_, ?_, ?_, ?_, ?_, ?_, ?_, ?_⟩
  · rw [List.length_append, hlen2]; have := h.size; simp; omega
  · rw [List.nodup_append]
    refine ⟨hnd2, by simp, ?_⟩
    intro x hx y hy hxy
    simp only [List.mem_singleton] at hy
    subst hxy hy
    have := h.bound _ ((mem2 _).mp hx).1
    rw [val_nodeIdOf hn511] at this
    omega
  · intro q hq
    rcases List.mem_append.mp hq with hq | hq
    · have := h.bound q ((mem2 q).mp hq).1; omega
    · simp only [List.mem_singleton] at hq
      subst hq; rw [val_nodeIdOf hn511]; omega
  · intro i hi
    rw [old i v (by have := h.made; omega)]
    exact h.leaves i hi
  · intro i hi1 hi2
    rw [isMergeNode_iff]
    by_cases hi : i.val < next
    · obtain ⟨f, l, r, hn, hl, hr, hlr, hf⟩ := isMergeNode_iff.mp (h.merges i hi1 hi)
      refine ⟨f, l, r, by rw [old i v hi]; exact hn, hl, hr, hlr, ?_⟩
      rw [old l v (lt_trans hl hi), old r v (lt_trans hr hi)]; exact hf
    · rw [isNew i hi2 hi]
      refine ⟨_, a, b, by rw [new, ← hv], ?_, ?_, hab, ?_⟩
      · rw [Fin.lt_def, val_nodeIdOf hn511]; exact haN
      · rw [Fin.lt_def, val_nodeIdOf hn511]; exact hbN
      · rw [old a v haN, old b v hbN]; exact hadd
  · intro i f l r hi1 hi2 hn
    by_cases hi : i.val < next
    · rw [old i v hi] at hn
      obtain ⟨_, _, _, hn', hl, hr, -⟩ := isMergeNode_iff.mp (h.merges i hi1 hi)
      rw [hn] at hn'
      obtain ⟨rfl, rfl, rfl⟩ := Node.internal.inj hn'
      rw [keys l r (lt_trans hl hi) (lt_trans hr hi)]
      exact h.ordered i f l r hi1 hi hn
    · rw [isNew i hi2 hi, new, ← hv] at hn
      obtain ⟨_, rfl, rfl⟩ := Node.internal.inj hn
      rw [keys a b haN hbN]
      exact extractLeast_least ha hbq' hab.symm
  · intro i f l r c hi1 hi2 hn hci hcl hcr hfree
    by_cases hi : i.val < next
    · rw [old i v hi] at hn
      obtain ⟨_, _, _, hn', hl, hr, -⟩ := isMergeNode_iff.mp (h.merges i hi1 hi)
      rw [hn] at hn'
      obtain ⟨rfl, rfl, rfl⟩ := Node.internal.inj hn'
      rw [keys r c (lt_trans hr hi) (lt_trans hci hi)]
      refine h.least i f l r c hi1 hi hn hci hcl hcr fun j hj => ?_
      rw [← old j v (lt_trans hj hi)]
      exact hfree j hj
    · have hin := isNew i hi2 hi
      have hiv : i.val = next := by rw [hin, val_nodeIdOf hn511]
      rw [hin, new, ← hv] at hn
      obtain ⟨_, rfl, rfl⟩ := Node.internal.inj hn
      have hcn : c.val < next := by rw [← hiv]; exact hci
      rw [keys b c hbN hcn]
      have hcq : c ∈ queue := by
        by_contra hcq
        obtain ⟨j, ⟨-, hj, hjc⟩, -⟩ := h.parent c hcn hcq
        have := hfree j (by rw [Fin.lt_def, hiv]; exact hj)
        rw [old j v hj, hjc] at this
        cases this
      exact extractLeast_least hb ((List.mem_erase_of_ne hcl).2 hcq) hcr
  · intro c hc j hj1 hj2
    rcases List.mem_append.mp hc with hc | hc
    · obtain ⟨hcq, hca, hcb⟩ := (mem2 c).mp hc
      by_cases hj : j.val < next
      · rw [old j v hj]; exact h.orphan c hcq j hj1 hj
      · rw [isNew j hj2 hj, new]
        rw [← Bool.not_eq_true, childNew]
        tauto
    · simp only [List.mem_singleton] at hc
      subst hc
      by_cases hj : j.val < next
      · rw [old j v hj]
        obtain ⟨f, l, r, hn, hl, hr, -⟩ := isMergeNode_iff.mp (h.merges j hj1 hj)
        rw [hn, Node.hasChild]
        have hl' : l ≠ nodeIdOf next := by
          rintro rfl; rw [Fin.lt_def, val_nodeIdOf hn511] at hl; omega
        have hr' : r ≠ nodeIdOf next := by
          rintro rfl; rw [Fin.lt_def, val_nodeIdOf hn511] at hr; omega
        simp [hl', hr']
      · rw [isNew j hj2 hj, new, ← Bool.not_eq_true, childNew]
        rintro (e | e)
        · have := congrArg Fin.val e; rw [val_nodeIdOf hn511] at this; omega
        · have := congrArg Fin.val e; rw [val_nodeIdOf hn511] at this; omega
  · intro c hc hcq
    by_cases hc' : c.val < next
    · by_cases hcab : c = a ∨ c = b
      · refine ⟨nodeIdOf next, ⟨by rw [val_nodeIdOf hn511]; exact h.made, by rw [val_nodeIdOf hn511]; omega,
          by rw [new]; exact (childNew c).mpr hcab⟩, ?_⟩
        intro j hj1 hj2 hjc
        by_cases hj : j.val < next
        · have hcQ : c ∈ queue := by rcases hcab with rfl | rfl <;> assumption
          rw [old j v hj, h.orphan c hcQ j hj1 hj] at hjc
          cases hjc
        · exact isNew j hj2 hj
      · have hcQ : c ∉ queue := fun hm => hcq (List.mem_append_left _ ((mem2 c).mpr ⟨hm, by tauto⟩))
        obtain ⟨i, ⟨hi1, hi2, hi3⟩, huniq⟩ := h.parent c hc' hcQ
        refine ⟨i, ⟨hi1, by omega, by rw [old i v hi2]; exact hi3⟩, ?_⟩
        intro j hj1 hj2 hjc
        by_cases hj : j.val < next
        · rw [old j v hj] at hjc; exact huniq j hj1 hj hjc
        · rw [isNew j hj2 hj, new] at hjc
          exact absurd ((childNew c).mp hjc) hcab
    · exact absurd (List.mem_append_right _ (by rw [isNew c hc hc']; simp)) hcq
  · rw [List.map_append, List.sum_append]
    have : (((queue.erase a).erase b).map fun q => (setNode node next v)[q].freq.toNat)
        = ((queue.erase a).erase b).map fun q => node[q].freq.toNat := by
      apply List.map_congr_left
      intro q hq
      rw [old q v (h.bound q ((mem2 q).mp hq).1)]
    rw [this]
    simp only [List.map_cons, List.map_nil, List.sum_cons, List.sum_nil, new]
    rw [← hv]
    show _ + ((node[a].freq + node[b].freq).toNat + 0) = _
    omega

/-- With enough turns the loop keeps its invariant and ends with one node in the queue
(41_tree_builder.md R120). -/
theorem mergeLoop_inv {seed : Arena} {n sum : Nat} (turns : Nat) {node : Arena} {queue : List NodeId}
    {next : Nat} (h : MergeInv seed n sum node queue next) (hq : queue ≠ [])
    (ht : queue.length ≤ turns + 1) :
    ∃ root, (mergeLoop turns node queue next).2 = [root] ∧
      MergeInv seed n sum (mergeLoop turns node queue next).1 [root] (2 * n - 1) := by
  have stop : ∀ q, queue = [q] → ∃ root, queue = [root] ∧ MergeInv seed n sum node [root] (2 * n - 1) := by
    intro q e
    have hs := h.size
    rw [e] at hs
    refine ⟨q, e, ?_⟩
    have : next = 2 * n - 1 := by simp at hs; omega
    rw [← this, ← e]; exact h
  induction turns generalizing node queue next with
  | zero =>
    obtain ⟨q, rfl⟩ : ∃ q, queue = [q] :=
      List.length_eq_one_iff.mp (by have := List.length_pos_iff.mpr hq; omega)
    exact stop q rfl
  | succ turns ih =>
    unfold mergeLoop
    cases ha : extractLeast node queue with
    | none => exact absurd (extractLeast_none.mp ha) hq
    | some r1 =>
      obtain ⟨a, queue1⟩ := r1
      cases hb : extractLeast node queue1 with
      | none =>
        simp only [hb]
        obtain ⟨haq, e⟩ := extractLeast_some ha
        have h1 := extractLeast_none.mp hb
        have hl := List.length_erase_of_mem haq
        rw [← e, h1] at hl
        obtain ⟨q, e⟩ : ∃ q, queue = [q] :=
          List.length_eq_one_iff.mp (by have := List.length_pos_iff.mpr hq; simp at hl; omega)
        exact stop q e
      | some r2 =>
        obtain ⟨b, queue2⟩ := r2
        simp only [hb]
        have hm := mergeInv_merge h ha hb
        obtain ⟨haq, rfl⟩ := extractLeast_some ha
        obtain ⟨hbq, rfl⟩ := extractLeast_some hb
        have hl1 := List.length_erase_of_mem haq
        have hl2 := List.length_erase_of_mem hbq
        have hp := List.length_pos_of_mem hbq
        refine ih hm (by simp) (by simp; omega) ?_
        intro q e
        have hs := hm.size
        rw [e] at hs
        refine ⟨q, e, ?_⟩
        have : next + 1 = 2 * n - 1 := by simp at hs; omega
        rw [← this, ← e]; exact hm

end Sys2Proof.Machine
end

