-- ==== Sys2Proof/Laws/Build.lean ====
section
/-! SUPPORT. BUILD from its seeds to its tree: the leaves' places, the merge loop's invariant at its start
and at its end (41_tree_builder.md R120, R122, R124). -/

namespace Sys2Proof.Machine

/-- Seeding from id i on leaves every node outside the seeded ids as it was. -/
theorem seedLeaves_outside (freq : Vector Word 256) (syms : List Byte) (i : Nat) (node : Arena)
    (k : NodeId) (h : k.val < i ∨ i + syms.length ≤ k.val) :
    (seedLeaves freq syms i node)[k] = node[k] := by
  induction syms generalizing i node with
  | nil => rfl
  | cons sym rest ih =>
    simp only [List.length_cons] at h
    rw [seedLeaves, ih _ _ (by omega), setNode_ne _ _ _ (by omega)]

/-- Node i + k is the leaf of the k-th seeded symbol (41_tree_builder.md R122). -/
theorem seedLeaves_get (freq : Vector Word 256) (syms : List Byte) (i : Nat) (node : Arena) (k : Nat)
    (hk : k < syms.length) (j : NodeId) (hj : j.val = i + k) :
    (seedLeaves freq syms i node)[j] = .leaf syms[k] (symEntry freq syms[k]) := by
  induction syms generalizing i node k with
  | nil => simp at hk
  | cons sym rest ih =>
    rw [seedLeaves]
    cases k with
    | zero =>
      rw [seedLeaves_outside _ _ _ _ _ (by omega)]
      have := setNode_self node (n := j.val) (.leaf sym (symEntry freq sym)) j.isLt
      simpa [show i = j.val by omega] using this
    | succ k =>
      rw [ih (i + 1) _ k (by simpa using hk) (by omega)]
      simp

theorem length_presentSymbols_le (freq : Vector Word 256) : (presentSymbols freq).length ≤ 256 := by
  rw [length_presentSymbols]
  exact alphabetSize_le freq

/-- The present symbols ascend (41_tree_builder.md R120). -/
theorem presentSymbols_ascending (freq : Vector Word 256) : (presentSymbols freq).Pairwise (· < ·) := by
  refine List.Pairwise.filter _ ?_
  rw [allSymbols, List.pairwise_map]
  refine List.pairwise_lt_range.imp_of_mem ?_
  intro a b ha hb h
  simp only [List.mem_range] at ha hb
  rw [BitVec.lt_def]
  simp only [BitVec.toNat_ofNat]
  omega

/-- The invariant of the merge loop holds where the loop starts. -/
theorem mergeInv_seed (freq : Vector Word 256) (node : Arena) (hsum : frequencySum freq < 2 ^ 32) :
    MergeInv (seedLeaves freq (presentSymbols freq) 0 node) (presentSymbols freq).length
      (frequencySum freq) (seedLeaves freq (presentSymbols freq) 0 node)
      ((List.range (presentSymbols freq).length).map nodeIdOf) (presentSymbols freq).length := by
  have hle := length_presentSymbols_le freq
  have hval : ∀ i < (presentSymbols freq).length, (nodeIdOf i).val = i :=
    fun i hi => val_nodeIdOf (by omega)
  have hmem : ∀ q : NodeId, q ∈ (List.range (presentSymbols freq).length).map nodeIdOf ↔
      q.val < (presentSymbols freq).length := by
    intro q
    simp only [List.mem_map, List.mem_range]
    constructor
    · rintro ⟨i, hi, rfl⟩; rw [hval i hi]; exact hi
    · intro hq; exact ⟨q.val, hq, nodeIdOf_val q⟩
  refine
    { count := hle, fits := hsum, size := by simp; omega, made := le_refl _, nodup := ?_,
      bound := fun q hq => (hmem q).1 hq, leaves := fun _ _ => rfl,
      merges := fun i h1 h2 => absurd h2 (by omega),
      ordered := fun i _ _ _ h1 h2 => absurd h2 (by omega),
      least := fun i _ _ _ _ h1 h2 => absurd h2 (by omega),
      orphan := fun _ _ j h1 h2 => absurd h2 (by omega),
      parent := fun c h1 h2 => absurd ((hmem c).2 h1) h2, total := ?_ }
  · rw [List.Nodup, List.pairwise_map]
    refine List.nodup_range.imp_of_mem ?_
    intro a b ha hb hab e
    rw [List.mem_range] at ha hb
    exact hab (by rw [← hval a ha, ← hval b hb, e])
  · rw [frequencySum, List.map_map]
    congr 1
    apply List.ext_getElem
    · simp
    · intro k h1 h2
      simp only [List.length_map, List.length_range] at h1
      have := seedLeaves_get freq (presentSymbols freq) 0 node k h1 (nodeIdOf k) (by rw [hval k h1]; omega)
      simp only [List.getElem_map, List.getElem_range, Function.comp_apply, this, Node.freq]

/-- With a leaf to build from, BUILD's loop ends with one node left, the root, and its invariant. -/
theorem buildTree_inv (freq : Vector Word 256) (node : Arena) (hsum : frequencySum freq < 2 ^ 32)
    (hn : presentSymbols freq ≠ []) :
    ∃ root, (buildTree freq node).2 = some root ∧
      MergeInv (seedLeaves freq (presentSymbols freq) 0 node) (presentSymbols freq).length
        (frequencySum freq) (buildTree freq node).1 [root] (2 * (presentSymbols freq).length - 1) := by
  obtain ⟨root, h1, h2⟩ := mergeLoop_inv (presentSymbols freq).length (mergeInv_seed freq node hsum)
    (by simpa using hn) (by simp)
  exact ⟨root, by simp [buildTree, h1], h2⟩

/-- With no leaf BUILD makes no node and the root is NONE (41_tree_builder.md R124). -/
theorem buildTree_empty (freq : Vector Word 256) (node : Arena) (hn : presentSymbols freq = []) :
    buildTree freq node = (node, none) := by
  rw [buildTree, hn]
  rfl

/-- The one node left is node 2n−2, the last one made (41_tree_builder.md R122). -/
theorem MergeInv.root_val {seed node : Arena} {n sum : Nat} {root : NodeId} (_hn : n ≠ 0)
    (h : MergeInv seed n sum node [root] (2 * n - 1)) : root.val = 2 * n - 2 := by
  by_contra hc
  have hb := h.bound root (by simp)
  have hcount := h.count
  let last : NodeId := ⟨2 * n - 2, by omega⟩
  have hlv : last.val = 2 * n - 2 := rfl
  have hne : last ∉ [root] := by
    rw [List.mem_singleton]
    intro e
    exact hc (by rw [← e])
  obtain ⟨i, ⟨h1, h2, h3⟩, -⟩ := h.parent last (by omega) hne
  obtain ⟨f, l, r, e, hl, hr, -⟩ := isMergeNode_iff.1 (h.merges i h1 h2)
  rw [e] at h3
  simp only [Node.hasChild, Bool.or_eq_true, beq_iff_eq] at h3
  have : last < i := by rcases h3 with rfl | rfl <;> assumption
  have hlt : last.val < i.val := this
  omega

end Sys2Proof.Machine
end

