-- ==== Sys2Proof/Laws/Completion.lean ====
section
/-! SUPPORT. What ending a command does: `finish`, `reject`, `complete` and the reset of all state
(46_system.md R195, R197, R199; 10_state.md R61), and the register words built from fields. -/

namespace Sys2Proof.Machine

/-- `finish` completes a command, from any state whose ERR and FIRST_ERR are still those before it
(46_system.md R197). -/
theorem completes_finish (cc : CompletionCode) {s u : State} (he : u.err = s.err)
    (hf : u.firstErr = s.firstErr) : Completes cc s (u.finish cc) where
  cc := rfl
  done := rfl
  idle := rfl
  err := by cases cc <;> simp [errAfter, he]
  firstErr := by simp [firstErrAfter, he, hf, and_comm]

theorem reject_next (cc : CompletionCode) (s : State) : reject cc s = .next (s.clearResults.finish cc) := rfl

theorem complete_next (s : State) : complete s = .next (s.finish .ok) := rfl

theorem hold_next (s : State) : hold s = .next s := rfl

/-- A failed command with no session effect changes only the completion fields. -/
theorem finish_clearResults_frame (cc : CompletionCode) (s : State) :
    s.clearResults.finish cc = s.withCompletionOf (s.clearResults.finish cc) := rfl

/-- The reset of all state gives the values of 10_state.md R61. -/
theorem resetValues_resetAll (s : State) : ResetValues s.resetAll := by
  constructor <;> simp

theorem resetValues_reset : ResetValues State.reset := by
  constructor <;> simp [State.reset]

/-- The number a concatenation stands for. -/
theorem toNat_append_eq {v w : Nat} (x : BitVec v) (y : BitVec w) :
    (x ++ y).toNat = x.toNat * 2 ^ w + y.toNat := by
  rw [BitVec.toNat_append, ← Nat.shiftLeft_add_eq_or_of_lt y.isLt, Nat.shiftLeft_eq]

/-- `0x100 | b` as a number (10_state.md R42). -/
theorem toNat_flaggedByte (b : Byte) : (flaggedByte b).toNat = 256 + b.toNat := by
  simp only [flaggedByte, toNat_append_eq]
  simp

/-- NRD's word for a leaf (41_tree_builder.md R127). -/
theorem toNat_nodeWord_leaf (sym : Byte) (f : Word) : (nodeWord (.leaf sym f)).toNat = sym.toNat := by
  simp only [nodeWord, toNat_append_eq]
  simp

/-- NRD's word for an internal node: `0x8000_0000 | l << 22 | r << 13` (41_tree_builder.md R127). -/
theorem toNat_nodeWord_internal (f : Word) (left right : NodeId) :
    (nodeWord (.internal f left right)).toNat = 2 ^ 31 + left.val * 2 ^ 22 + right.val * 2 ^ 13 := by
  have hl : (BitVec.ofNat 9 left.val).toNat = left.val := by simp; omega
  have hr : (BitVec.ofNat 9 right.val).toNat = right.val := by simp; omega
  simp only [nodeWord, toNat_append_eq, hl, hr]
  simp
  omega

end Sys2Proof.Machine
end

