-- ==== Sys2Proof/Laws/Encoding.lean ====
section
/-! SUPPORT. The fields of a command word, read back from the word they are put in
(30_encoding.md R95, R96). -/

namespace Sys2Proof

@[simp] theorem opField_append (op sym : Byte) (idx : BitVec 16) :
    opField (op ++ sym ++ idx : Word) = op := by
  unfold opField
  apply BitVec.eq_of_getLsbD_eq
  intro i hi
  rw [BitVec.getLsbD_extractLsb', BitVec.getLsbD_append, BitVec.getLsbD_append]
  simp [hi, show ¬ 24 + i < 16 by omega, show ¬ 24 + i - 16 < 8 by omega,
    show 24 + i - 16 - 8 = i by omega]

@[simp] theorem symField_append (op sym : Byte) (idx : BitVec 16) :
    symField (op ++ sym ++ idx : Word) = sym := by
  unfold symField
  apply BitVec.eq_of_getLsbD_eq
  intro i hi
  rw [BitVec.getLsbD_extractLsb', BitVec.getLsbD_append, BitVec.getLsbD_append]
  simp [hi, show ¬ 16 + i < 16 by omega, show 16 + i - 16 = i by omega]

@[simp] theorem idxField_append (op sym : Byte) (idx : BitVec 16) :
    idxField (op ++ sym ++ idx : Word) = idx.toNat := by
  unfold idxField
  congr 1
  apply BitVec.eq_of_getLsbD_eq
  intro i hi
  rw [BitVec.getLsbD_extractLsb', BitVec.getLsbD_append]
  simp [hi]

@[simp] theorem ofNat_idxField (word : Word) : BitVec.ofNat 16 (idxField word) = word.extractLsb' 0 16 := by
  rw [idxField, BitVec.ofNat_toNat, BitVec.setWidth_eq]

theorem opField_commandWord (op sym : Byte) (idx : Nat) : opField (commandWord op sym idx) = op :=
  opField_append ..

theorem symField_commandWord (op sym : Byte) (idx : Nat) : symField (commandWord op sym idx) = sym :=
  symField_append ..

theorem idxField_commandWord (op sym : Byte) {idx : Nat} (h : idx < 65536) :
    idxField (commandWord op sym idx) = idx := by
  rw [commandWord, idxField_append, BitVec.toNat_ofNat, Nat.mod_eq_of_lt h]

end Sys2Proof
end

