-- ==== Sys2Proof/Laws/PerInstr.lean ====
section
/-! SUPPORT. What holds of every command as syntax, one lemma for each constructor. -/

namespace Sys2Proof.Laws.EncodedOpcode

open Sys2Proof

/-- The OP field of a command's word is the command's opcode (30_encoding.md R95, R98). -/
def Statement (i : Instr) : Prop := opField (encodeWord i) = i.opcode

theorem nop : Statement .nop := opField_commandWord ..
theorem sreset : Statement .sreset := opField_commandWord ..
theorem fclr : Statement .fclr := opField_commandWord ..
theorem fwr (sym : Byte) (arg : Word) : Statement (.fwr sym arg) := opField_commandWord ..
theorem frd (sym : Byte) : Statement (.frd sym) := opField_commandWord ..
theorem finc (sym : Byte) : Statement (.finc sym) := opField_commandWord ..
theorem build : Statement .build := opField_commandWord ..
theorem genc : Statement .genc := opField_commandWord ..
theorem crd (sym : Byte) (idx : Nat) : Statement (.crd sym idx) := opField_commandWord ..
theorem lrd (idx : Nat) : Statement (.lrd idx) := opField_commandWord ..
theorem nrd (idx : Nat) : Statement (.nrd idx) := opField_commandWord ..
theorem estart : Statement .estart := opField_commandWord ..
theorem esym (sym : Byte) : Statement (.esym sym) := opField_commandWord ..
theorem eflush : Statement .eflush := opField_commandWord ..
theorem bpush (idx : Nat) (arg : Word) : Statement (.bpush idx arg) := opField_commandWord ..
theorem dstart : Statement .dstart := opField_commandWord ..
theorem dsym : Statement .dsym := opField_commandWord ..
theorem bget : Statement .bget := opField_commandWord ..

end Sys2Proof.Laws.EncodedOpcode
end

