-- ==== Sys2Proof/Laws/Visit.lean ====
section
/-! SUPPORT. Paths through the tree: what GENC's traversal visits, that each visited path is what Descend
follows, and that a tree of the shape of 41_tree_builder.md R125 has one path to each leaf
(42_code_table.md R135, R136; 45_decode.md R181). -/

namespace Sys2Proof.Machine

/-- The node that a path leads to, left on 0 and right on 1; none where it passes a leaf. -/
def follow (node : Arena) : NodeId → BitString → Option NodeId
  | n, [] => some n
  | n, x :: rest =>
    match node[n] with
    | .leaf _ _ => none
    | .internal _ left right => follow node (if x then right else left) rest

@[simp] theorem follow_nil (node : Arena) (n : NodeId) : follow node n [] = some n := rfl

theorem follow_cons_leaf {node : Arena} {n : NodeId} {sym : Byte} {f : Word} (h : node[n] = .leaf sym f)
    (x : Bool) (rest : BitString) : follow node n (x :: rest) = none := by
  simp [follow, h]

theorem follow_cons_internal {node : Arena} {n l r : NodeId} {f : Word} (h : node[n] = .internal f l r)
    (x : Bool) (rest : BitString) :
    follow node n (x :: rest) = follow node (if x then r else l) rest := by
  simp [follow, h]

theorem follow_append {node : Arena} {n m : NodeId} {p : BitString} (h : follow node n p = some m)
    (q : BitString) : follow node n (p ++ q) = follow node m q := by
  induction p generalizing n with
  | nil => simp at h; subst h; rfl
  | cons x p ih =>
    cases hn : node[n] with
    | leaf sym f => rw [follow_cons_leaf hn] at h; cases h
    | internal f l r =>
      rw [follow_cons_internal hn] at h
      rw [List.cons_append, follow_cons_internal hn, ih h]

/-- A path to a leaf is what Descend follows, using exactly its bits (45_decode.md R181). -/
theorem descend_of_follow {node : Arena} {n m : NodeId} {p : BitString} {sym : Byte} {f : Word}
    (h : follow node n p = some m) (hm : node[m] = .leaf sym f) (rest : BitString) :
    descend node n (p ++ rest) = some (p.length, m, sym) := by
  induction p generalizing n with
  | nil => simp at h; subst h; exact descend_at_leaf hm _
  | cons x p ih =>
    cases hn : node[n] with
    | leaf sym f => rw [follow_cons_leaf hn] at h; cases h
    | internal f l r =>
      rw [follow_cons_internal hn] at h
      simp [descend, hn, ih h]

/-! ### The traversal -/

theorem visit_leaf {node : Arena} {n : NodeId} {sym : Byte} {f : Word} (h : node[n] = .leaf sym f)
    (d : Nat) (p : BitString) : visit node d n p = [(n, p)] := by
  unfold visit
  split <;> simp_all

theorem visit_internal_zero {node : Arena} {n l r : NodeId} {f : Word} (h : node[n] = .internal f l r)
    (p : BitString) : visit node 0 n p = [] := by
  unfold visit
  split <;> simp_all

theorem visit_internal_succ {node : Arena} {n l r : NodeId} {f : Word} (h : node[n] = .internal f l r)
    (d : Nat) (p : BitString) :
    visit node (d + 1) n p = visit node d l (p ++ [false]) ++ visit node d r (p ++ [true]) := by
  conv => lhs; unfold visit
  split <;> simp_all

/-- The traversal visits exactly the leaves that a path of at most its depth leads to, each with its path
(42_code_table.md R135). -/
theorem mem_visit {node : Arena} {d : Nat} {n m : NodeId} {p p' : BitString} :
    (m, p') ∈ visit node d n p ↔
      ∃ q, p' = p ++ q ∧ q.length ≤ d ∧ follow node n q = some m ∧ ∃ sym f, node[m] = .leaf sym f := by
  induction d generalizing n p with
  | zero =>
    cases hn : node[n] with
    | leaf sym f =>
      rw [visit_leaf hn]
      constructor
      · intro h
        simp only [List.mem_singleton, Prod.mk.injEq] at h
        obtain ⟨rfl, rfl⟩ := h
        exact ⟨[], by simp, by simp, rfl, _, _, hn⟩
      · rintro ⟨q, rfl, hq, hf, -⟩
        obtain rfl : q = [] := List.length_eq_zero_iff.1 (by omega)
        simp only [follow_nil, Option.some.injEq] at hf
        simp [hf]
    | internal f l r =>
      rw [visit_internal_zero hn]
      constructor
      · simp
      · rintro ⟨q, -, hq, hf, sym, g, hm⟩
        obtain rfl : q = [] := List.length_eq_zero_iff.1 (by omega)
        simp only [follow_nil, Option.some.injEq] at hf
        subst hf
        rw [hn] at hm
        cases hm
  | succ d ih =>
    cases hn : node[n] with
    | leaf sym f =>
      rw [visit_leaf hn]
      constructor
      · intro h
        simp only [List.mem_singleton, Prod.mk.injEq] at h
        obtain ⟨rfl, rfl⟩ := h
        exact ⟨[], by simp, by simp, rfl, _, _, hn⟩
      · rintro ⟨q, rfl, -, hf, -⟩
        cases q with
        | nil => simp only [follow_nil, Option.some.injEq] at hf; simp [hf]
        | cons x q => rw [follow_cons_leaf hn] at hf; cases hf
    | internal f l r =>
      rw [visit_internal_succ hn, List.mem_append, ih, ih]
      constructor
      · rintro (⟨q, rfl, hq, hf, hm⟩ | ⟨q, rfl, hq, hf, hm⟩)
        · exact ⟨false :: q, by simp, by simp; omega, by simpa [follow_cons_internal hn] using hf, hm⟩
        · exact ⟨true :: q, by simp, by simp; omega, by simpa [follow_cons_internal hn] using hf, hm⟩
      · rintro ⟨q, rfl, hq, hf, hm⟩
        cases q with
        | nil =>
          simp only [follow_nil, Option.some.injEq] at hf
          subst hf
          obtain ⟨sym, g, hm⟩ := hm
          rw [hn] at hm
          cases hm
        | cons x q =>
          rw [follow_cons_internal hn] at hf
          simp only [List.length_cons, Nat.add_le_add_iff_right] at hq
          cases x
          · exact .inl ⟨q, by simp, hq, by simpa using hf, hm⟩
          · exact .inr ⟨q, by simp, hq, by simpa using hf, hm⟩

/-- Of two visited leaves the earlier lies further left (42_code_table.md R135). -/
theorem visit_pairwise (node : Arena) (d : Nat) (n : NodeId) (p : BitString) :
    (visit node d n p).Pairwise fun a b => isLeftOf a.2 b.2 := by
  induction d generalizing n p with
  | zero =>
    cases hn : node[n] with
    | leaf sym f => rw [visit_leaf hn]; simp
    | internal f l r => rw [visit_internal_zero hn]; simp
  | succ d ih =>
    cases hn : node[n] with
    | leaf sym f => rw [visit_leaf hn]; simp
    | internal f l r =>
      rw [visit_internal_succ hn, List.pairwise_append]
      refine ⟨ih _ _, ih _ _, ?_⟩
      rintro ⟨m, a⟩ ha ⟨m', b⟩ hb
      obtain ⟨q, rfl, -⟩ := mem_visit.1 ha
      obtain ⟨q', rfl, -⟩ := mem_visit.1 hb
      exact ⟨p, q, q', by simp, by simp⟩

theorem isLeftOf_ne {p q : BitString} (h : isLeftOf p q) : p ≠ q := by
  rintro rfl
  obtain ⟨c, p', q', h1, h2⟩ := h
  have := List.append_cancel_left (h1.symm.trans h2)
  simp at this

/-! ### The tables GENC writes -/

/-- A code that GENC writes is the path of a visited leaf of that symbol. -/
theorem codesOfLeaves_present {node : Arena} {leaves : List (NodeId × BitString)} {sym : Byte}
    {p : BitString} (h : symEntry (codesOfLeaves node leaves) sym = .present p) :
    ∃ m f, (m, p) ∈ leaves ∧ node[m] = .leaf sym f := by
  have key : ∀ (ls : List (NodeId × BitString)) (code : Vector CodeEntry 256),
      (∀ leaf ∈ ls, leaf ∈ leaves) →
      (∀ p, symEntry code sym = .present p → ∃ m f, (m, p) ∈ leaves ∧ node[m] = .leaf sym f) →
      ∀ p, symEntry (ls.foldl (fun code leaf =>
        match node[leaf.1] with
        | .leaf sym _ => setSymEntry code sym (.present leaf.2)
        | .internal _ _ _ => code) code) sym = .present p →
        ∃ m f, (m, p) ∈ leaves ∧ node[m] = .leaf sym f := by
    intro ls
    induction ls with
    | nil => intro code _ hc p hp; exact hc p hp
    | cons leaf ls ih =>
      intro code hmem hc p hp
      refine ih _ (fun l hl => hmem l (List.mem_cons_of_mem _ hl)) ?_ p hp
      intro p' hp'
      beta_reduce at hp'
      cases hn : node[leaf.1] with
      | internal f l r => rw [hn] at hp'; exact hc p' hp'
      | leaf sym' f =>
        rw [hn] at hp'
        simp only [symEntry_setSymEntry] at hp'
        split at hp'
        · rename_i e
          subst e
          obtain rfl : leaf.2 = p' := by simpa using hp'
          exact ⟨leaf.1, f, hmem _ (List.mem_cons_self ..), hn⟩
        · exact hc p' hp'
  exact key leaves _ (fun _ h => h) (fun p hp => by simp at hp) p h

/-- Every visited leaf's symbol gets a code. -/
theorem codesOfLeaves_ne_absent {node : Arena} {leaves : List (NodeId × BitString)} {m : NodeId}
    {p : BitString} {sym : Byte} {f : Word} (h : (m, p) ∈ leaves) (hm : node[m] = .leaf sym f) :
    symEntry (codesOfLeaves node leaves) sym ≠ .absent := by
  have key : ∀ (ls : List (NodeId × BitString)) (code : Vector CodeEntry 256),
      ((m, p) ∈ ls ∨ symEntry code sym ≠ .absent) →
      symEntry (ls.foldl (fun code leaf =>
        match node[leaf.1] with
        | .leaf sym _ => setSymEntry code sym (.present leaf.2)
        | .internal _ _ _ => code) code) sym ≠ .absent := by
    intro ls
    induction ls with
    | nil => intro code hc; simpa using hc
    | cons leaf ls ih =>
      intro code hc
      refine ih _ ?_
      by_cases e : leaf = (m, p)
      · subst e
        refine .inr ?_
        simp [hm]
      · rcases hc with hc | hc
        · rcases List.mem_cons.1 hc with hc | hc
          · exact absurd hc.symm e
          · exact .inl hc
        · refine .inr ?_
          beta_reduce
          cases hn : node[leaf.1] with
          | internal f l r => exact hc
          | leaf sym' f =>
            simp only [symEntry_setSymEntry]
            split
            · simp
            · exact hc
  exact key leaves _ (.inl h)

theorem storeLeafOrder_before (leaves : List (NodeId × BitString)) (i : Nat) (ord : Vector NodeId 256)
    (k : Fin 256) (h : k.val < i) : (storeLeafOrder leaves i ord)[k] = ord[k] := by
  induction leaves generalizing i ord with
  | nil => rfl
  | cons leaf rest ih =>
    rw [storeLeafOrder, ih _ _ (by omega)]
    split
    · simp [show i ≠ k.val by omega]
    · rfl

/-- Entry i + k of the leaf order table is the k-th visited leaf (10_state.md R54). -/
theorem storeLeafOrder_get (leaves : List (NodeId × BitString)) (i : Nat) (ord : Vector NodeId 256)
    (k : Nat) (hk : k < leaves.length) (j : Fin 256) (hj : j.val = i + k) :
    (storeLeafOrder leaves i ord)[j] = leaves[k].1 := by
  induction leaves generalizing i ord k with
  | nil => simp at hk
  | cons leaf rest ih =>
    rw [storeLeafOrder]
    cases k with
    | zero =>
      rw [storeLeafOrder_before _ _ _ _ (by omega)]
      have hi : i < 256 := by omega
      simp [show i = j.val by omega]
    | succ k =>
      rw [ih (i + 1) _ k (by simpa using hk) (by omega)]
      simp

/-! ### Trees of the shape of R125 -/

/-- A node in use is a leaf below n or a merge node of two lower ones. -/
theorem TreeShape.internal_of_ge {node : Arena} {n : Nat} {root : Option NodeId}
    (h : TreeShape node n root) {i : NodeId} (h1 : n ≤ i.val) (h2 : i.val < 2 * n - 1) :
    ∃ f l r, node[i] = .internal f l r ∧ l < i ∧ r < i ∧ l ≠ r := by
  obtain ⟨f, l, r, e, hl, hr, hlr, -⟩ := isMergeNode_iff.1 (h.merges i h1 h2)
  exact ⟨f, l, r, e, hl, hr, hlr⟩

theorem TreeShape.leaf_of_lt {node : Arena} {n : Nat} {root : Option NodeId}
    (h : TreeShape node n root) {i : NodeId} (h1 : i.val < n) :
    ∃ f, node[i] = .leaf node[i].symbol f ∧ f ≠ 0 := by
  have hl := h.leaves i h1
  cases hn : node[i] with
  | leaf sym f => rw [hn] at hl; exact ⟨f, rfl, by simpa [Node.isLiveLeaf] using hl⟩
  | internal f l r => rw [hn] at hl; simp [Node.isLiveLeaf] at hl

theorem TreeShape.lt_of_leaf {node : Arena} {n : Nat} {root : Option NodeId}
    (h : TreeShape node n root) {i : NodeId} {sym : Byte} {f : Word} (h1 : i.val < 2 * n - 1)
    (hi : node[i] = .leaf sym f) : i.val < n := by
  by_contra hc
  obtain ⟨g, l, r, e, -⟩ := h.internal_of_ge (by omega) h1
  rw [hi] at e
  cases e

/-- A path stays among the nodes in use, and each of its steps goes to a lower one, so its length and
where it ends are bounded by where it starts. -/
theorem TreeShape.follow_bound {node : Arena} {n : Nat} {root : Option NodeId}
    (h : TreeShape node n root) {i m : NodeId} {p : BitString} (hi : i.val < 2 * n - 1)
    (hf : follow node i p = some m) :
    m.val + p.length ≤ i.val ∧ (p ≠ [] → n ≤ i.val) ∧ p.length ≤ i.val + 1 - n := by
  induction p generalizing i with
  | nil => simp only [follow_nil, Option.some.injEq] at hf; subst hf; simp
  | cons x p ih =>
    have hn : n ≤ i.val := by
      by_contra hc
      obtain ⟨f, e, -⟩ := h.leaf_of_lt (by omega : i.val < n)
      rw [follow_cons_leaf e] at hf
      cases hf
    obtain ⟨f, l, r, e, hl, hr, -⟩ := h.internal_of_ge hn hi
    rw [follow_cons_internal e] at hf
    have hc : (if x then r else l) < i := by cases x <;> assumption
    have hlt : (if x then r else l).val < i.val := hc
    obtain ⟨h1, -, h3⟩ := ih (by omega) hf
    refine ⟨?_, fun _ => hn, ?_⟩
    · simp only [List.length_cons]; omega
    · simp only [List.length_cons]; omega

/-- No two paths lead from the root to one node: no sharing and no cycle (41_tree_builder.md R125). -/
theorem TreeShape.path_unique {node : Arena} {n : Nat} {r : NodeId} (h : TreeShape node n (some r))
    {m : NodeId} {p q : BitString} (hp : follow node r p = some m) (hq : follow node r q = some m) :
    p = q := by
  have hn0 : n ≠ 0 := by
    intro e
    have := h.root_eq
    simp [e] at this
  have hr : r = nodeIdOf (2 * n - 2) := by have := h.root_eq; simpa [hn0] using this
  have hrv : r.val = 2 * n - 2 := by rw [hr, val_nodeIdOf (by have := h.count; omega)]
  have hrlt : r.val < 2 * n - 1 := by omega
  induction p using List.reverseRecOn generalizing m q with
  | nil =>
    simp only [follow_nil, Option.some.injEq] at hp
    subst hp
    have := (h.follow_bound hrlt hq).1
    exact (List.length_eq_zero_iff.1 (by omega)).symm
  | append_singleton p x ih =>
    induction q using List.reverseRecOn with
    | nil =>
      simp only [follow_nil, Option.some.injEq] at hq
      subst hq
      have := (h.follow_bound hrlt hp).1
      simp at this
    | append_singleton q y _ =>
      have split : ∀ (p : BitString) (x : Bool), follow node r (p ++ [x]) = some m →
          ∃ i f a b, follow node r p = some i ∧ node[i] = .internal f a b ∧ a ≠ b
            ∧ (if x then b else a) = m ∧ i.val < 2 * n - 1 := by
        intro p x hp
        cases hi : follow node r p with
        | none =>
          exfalso
          have : ∀ (k : NodeId) (p : BitString), follow node k p = none →
              follow node k (p ++ [x]) = none := by
            intro k p
            induction p generalizing k with
            | nil => simp
            | cons z p ihp =>
              intro hk
              cases hkn : node[k] with
              | leaf s f => rw [List.cons_append, follow_cons_leaf hkn]
              | internal f a b =>
                rw [follow_cons_internal hkn] at hk
                rw [List.cons_append, follow_cons_internal hkn]
                exact ihp _ hk
          rw [this _ _ hi] at hp
          cases hp
        | some i =>
          rw [follow_append hi] at hp
          have hib := (h.follow_bound hrlt hi).1
          have hilt : i.val < 2 * n - 1 := by omega
          have hni : n ≤ i.val := (h.follow_bound hilt hp).2.1 (by simp)
          obtain ⟨f, a, b, e, -, -, hab⟩ := h.internal_of_ge hni hilt
          rw [follow_cons_internal e] at hp
          exact ⟨i, f, a, b, rfl, e, hab, by simpa using hp, hilt⟩
      obtain ⟨i, f, a, b, hi, ei, hab, hm, hilt⟩ := split p x hp
      obtain ⟨j, g, c, d, hj, ej, hcd, hm', hjlt⟩ := split q y hq
      have hchild : ∀ {k a b : NodeId} {f : Word} {x : Bool}, node[k] = Node.internal f a b → (if x then b else a) = m →
          node[k].hasChild m = true := by
        intro k a b f x e hm
        rw [e]
        cases x <;> simp_all [Node.hasChild]
      have hmlt : m.val < 2 * n - 2 := by
        have := (h.follow_bound hrlt hp).1
        simp at this
        omega
      obtain ⟨u, -, -, huniq⟩ := h.parent m hmlt
      have hiu := huniq i hilt (hchild ei hm)
      have hju := huniq j hjlt (hchild ej hm')
      have hij : i = j := hiu.trans hju.symm
      subst hij
      obtain rfl := ih hi hj
      rw [ei] at ej
      simp only [Node.internal.injEq] at ej
      obtain ⟨-, rfl, rfl⟩ := ej
      cases x <;> cases y
      · rfl
      · exact absurd (hm.trans hm'.symm) hab
      · exact absurd (hm'.trans hm.symm) hab
      · rfl

/-- Every node in use is reached from the root (41_tree_builder.md R125). -/
theorem TreeShape.reached {node : Arena} {n : Nat} {r : NodeId} (h : TreeShape node n (some r))
    (k : Nat) (m : NodeId) (hm : m.val + k = 2 * n - 2) : ∃ p, follow node r p = some m := by
  have hn0 : n ≠ 0 := by
    intro e
    have := h.root_eq
    simp [e] at this
  have hr : r = nodeIdOf (2 * n - 2) := by have := h.root_eq; simpa [hn0] using this
  have hrv : r.val = 2 * n - 2 := by rw [hr, val_nodeIdOf (by have := h.count; omega)]
  induction k using Nat.strongRecOn generalizing m with
  | _ k ih =>
    by_cases hk : k = 0
    · have : m = r := by apply Fin.ext; omega
      exact ⟨[], by simp [this]⟩
    · obtain ⟨i, hi, hc, -⟩ := h.parent m (by omega)
      have hni : n ≤ i.val := by
        by_contra hlt
        obtain ⟨f, e, -⟩ := h.leaf_of_lt (by omega : i.val < n)
        rw [e] at hc
        simp [Node.hasChild] at hc
      obtain ⟨f, a, b, e, ha, hb, -⟩ := h.internal_of_ge hni hi
      have hmi : m.val < i.val := by
        rw [e] at hc
        simp only [Node.hasChild, Bool.or_eq_true, beq_iff_eq] at hc
        rcases hc with rfl | rfl <;> assumption
      obtain ⟨p, hp⟩ := ih (2 * n - 2 - i.val) (by omega) i (by omega)
      rw [e] at hc
      simp only [Node.hasChild, Bool.or_eq_true, beq_iff_eq] at hc
      rcases hc with rfl | rfl
      · exact ⟨p ++ [false], by rw [follow_append hp, follow_cons_internal e]; simp⟩
      · exact ⟨p ++ [true], by rw [follow_append hp, follow_cons_internal e]; simp⟩

/-- The leaves GENC visits in a tree of the shape of R125: each of nodes 0..n−1 once
(42_code_table.md R135). -/
theorem TreeShape.visited {node : Arena} {n : Nat} {r : NodeId} (h : TreeShape node n (some r)) :
    ((visit node 255 r []).map fun l => l.1.val).Perm (List.range n) := by
  have hn0 : n ≠ 0 := by
    intro e
    have := h.root_eq
    simp [e] at this
  have hr : r = nodeIdOf (2 * n - 2) := by have := h.root_eq; simpa [hn0] using this
  have hrv : r.val = 2 * n - 2 := by rw [hr, val_nodeIdOf (by have := h.count; omega)]
  have hrlt : r.val < 2 * n - 1 := by omega
  have hcount := h.count
  refine (List.perm_ext_iff_of_nodup ?_ List.nodup_range).2 ?_
  · rw [List.Nodup, List.pairwise_map]
    refine (visit_pairwise node 255 r []).imp_of_mem ?_
    rintro ⟨a, pa⟩ ⟨b, pb⟩ ha hb hleft heq
    obtain ⟨qa, ea, -, fa, -⟩ := mem_visit.1 ha
    obtain ⟨qb, eb, -, fb, -⟩ := mem_visit.1 hb
    simp only [List.nil_append] at ea eb
    subst ea eb
    have hab : a = b := Fin.ext heq
    subst hab
    exact isLeftOf_ne hleft (h.path_unique fa fb)
  · intro i
    simp only [List.mem_map, List.mem_range]
    constructor
    · rintro ⟨⟨m, p⟩, hm, rfl⟩
      obtain ⟨q, -, -, hf, sym, f, e⟩ := mem_visit.1 hm
      have := (h.follow_bound hrlt hf).1
      have hm2 : m.val < 2 * n - 1 := by omega
      exact h.lt_of_leaf hm2 e
    · intro hi
      let m : NodeId := ⟨i, by omega⟩
      obtain ⟨p, hp⟩ := h.reached (2 * n - 2 - i) m (by show i + _ = _; omega)
      obtain ⟨f, e, -⟩ := h.leaf_of_lt (i := m) hi
      have hlen := (h.follow_bound hrlt hp).2.2
      exact ⟨(m, p), mem_visit.2 ⟨p, by simp, by omega, hp, _, _, e⟩, rfl⟩

/-- One symbol has one leaf, so one path (41_tree_builder.md R122). -/
theorem TreeShape.path_of_symbol {node : Arena} {n : Nat} {r : NodeId} (h : TreeShape node n (some r))
    {i m : NodeId} {p q : BitString} {sym : Byte} {f g : Word} (hp : follow node r p = some i)
    (hi : node[i] = .leaf sym f) (hq : follow node r q = some m) (hm : node[m] = .leaf sym g) : p = q := by
  have hn0 : n ≠ 0 := by
    intro e
    have := h.root_eq
    simp [e] at this
  have hcount := h.count
  have hr : r = nodeIdOf (2 * n - 2) := by have := h.root_eq; simpa [hn0] using this
  have hrv : r.val = 2 * n - 2 := by rw [hr, val_nodeIdOf (by omega)]
  have b1 := (h.follow_bound (by omega) hp).1
  have b2 := (h.follow_bound (by omega) hq).1
  have l1 := h.lt_of_leaf (by omega) hi
  have l2 := h.lt_of_leaf (by omega) hm
  have : i = m := by
    rcases lt_trichotomy i m with hlt | e | hlt
    · have := h.ascending i m hlt l2
      rw [hi, hm] at this
      exact absurd this (by simp [Node.symbol])
    · exact e
    · have := h.ascending m i hlt l1
      rw [hi, hm] at this
      exact absurd this (by simp [Node.symbol])
  subst this
  exact h.path_unique hp hq

/-- In a tree of the shape of R125 the code GENC writes for a visited leaf's symbol is that leaf's path
(42_code_table.md R135). -/
theorem TreeShape.code_of_visited {node : Arena} {n : Nat} {r m : NodeId} {p : BitString}
    (h : TreeShape node n (some r)) {sym : Byte} {f : Word} (hm : (m, p) ∈ visit node 255 r [])
    (e : node[m] = .leaf sym f) :
    symEntry (codesOfLeaves node (visit node 255 r [])) sym = .present p := by
  cases hc : symEntry (codesOfLeaves node (visit node 255 r [])) sym with
  | absent => exact absurd hc (codesOfLeaves_ne_absent hm e)
  | present q =>
    obtain ⟨m', f', hm', e'⟩ := codesOfLeaves_present hc
    obtain ⟨_, rfl, -, hf, -⟩ := mem_visit.1 hm
    obtain ⟨_, rfl, -, hf', -⟩ := mem_visit.1 hm'
    simp only [CodeEntry.present.injEq]
    exact h.path_of_symbol hf' e' hf e

end Sys2Proof.Machine
end

