-- ==== Sys2Proof/Tests/Slice0.lean ====
section
/-! SUPPORT. Tests of the model. Expected values are those of spec/95_test_vectors.md (named V-…) and of
the encoding table of spec/30_encoding.md R98 and R105, and for each statement with hypotheses a witness
that meets them. -/

namespace Sys2Proof.Tests

open Sys2Proof Sys2Proof.Machine

set_option Elab.async false

/-! ### Helpers -/

/-- The reset state with `IN_DEPTH = OUT_DEPTH = 64`, the start of the vectors of 95_test_vectors.md. -/
def base : State := { State.reset with inDepth := 64, outDepth := 64 }

/-- Whether a turn or a command answers a next state. -/
def isNext : Result → Bool
  | .next _ => true
  | .fault _ => false
  | .refused _ => false

/-- The next state, or the given one where there is none. -/
def nextOf (r : Result) (s : State) : State :=
  match r with
  | .next t => t
  | .fault _ => s
  | .refused _ => s

/-- The state after a command. -/
def after (i : Instr) (s : State) : State := nextOf (exec i s) s

theorem eq_next_of_isNext {r : Result} {s : State} (h : isNext r = true) : r = .next (nextOf r s) := by
  cases r with
  | next t => rfl
  | fault f => simp [isNext] at h
  | refused f => simp [isNext] at h

/-- RESULT0, RESULT1 and the STATUS word, the three columns of the vectors. -/
def results (s : State) : Word × Word × Word := (s.result0, s.result1, s.statusWord)

/-- The frequency table of V-T2: 'x' = 3, 'y' = 1. -/
def freqXY : Vector Word 256 := setSymEntry (setSymEntry (Vector.replicate 256 0) 0x78 3) 0x79 1

/-- The tree of V-T2: leaf 'x', leaf 'y', and the root with 'y' on the left. -/
def nodeXY : Arena :=
  setNode (setNode (setNode (Vector.replicate 511 (.leaf 0 0)) 0 (.leaf 0x78 3)) 1 (.leaf 0x79 1)) 2
    (.internal 4 1 0)

/-- The codes of V-T2: 'y' = 0, 'x' = 1. -/
def codeXY : Vector CodeEntry 256 :=
  setSymEntry (setSymEntry (Vector.replicate 256 .absent) 0x79 (.present [false])) 0x78 (.present [true])

/-- V-T2 after BUILD. -/
def treeXY : State :=
  { base with
    freq := freqXY, node := nodeXY, root := some 2, treeValid := true, total := 4, nleaf := 2 }

/-- V-T2 after BUILD and GENC. -/
def tableXY : State :=
  { treeXY with
    codesValid := true, code := codeXY, leafOrd := Vector.ofFn fun i => if i = 0 then 1 else 0 }

/-- V-T8: the single leaf 'A' = 4, after BUILD. -/
def treeA : State :=
  { base with
    node := setNode (Vector.replicate 511 (.leaf 0 0)) 0 (.leaf 0x41 4), root := some 0
    treeValid := true, treeSingle := true, total := 4, nleaf := 1 }

/-- A decode session on V-T2's tree with one input byte. -/
def decodingXY : State := { treeXY with decActive := true, decRem := 4, inq := [0x8A] }

/-- An encode session on V-T2's codes. -/
def encodingXY : State := { tableXY with encActive := true }

/-! ### WellFormed -/

theorem test_wellFormed_refuses_wide_crd : (Instr.crd 0 65536).wellFormed = false := by decide
theorem test_wellFormed_refuses_wide_lrd : (Instr.lrd 65536).wellFormed = false := by decide
theorem test_wellFormed_refuses_wide_nrd : (Instr.nrd 65536).wellFormed = false := by decide
theorem test_wellFormed_refuses_wide_bpush : (Instr.bpush 65536 0).wellFormed = false := by decide
theorem test_wellFormed_accepts_widest_index : (Instr.nrd 65535).wellFormed = true := by decide

/-! ### Decoding: one word written out from R105 for each row of the table -/

theorem test_decode_nop : decode 0x00000000 0 = .ok .nop := by decide
theorem test_decode_sreset : decode 0x01000000 0 = .ok .sreset := by decide
theorem test_decode_fclr : decode 0x10000000 0 = .ok .fclr := by decide
theorem test_decode_fwr : decode 0x11420000 6 = .ok (.fwr 0x42 6) := by decide
theorem test_decode_frd : decode 0x12410000 0 = .ok (.frd 0x41) := by decide
theorem test_decode_finc : decode 0x13410000 0 = .ok (.finc 0x41) := by decide
theorem test_decode_build_ignores_fields : decode 0x20FFFFFF 0 = .ok .build := by decide
theorem test_decode_genc : decode 0x21000000 0 = .ok .genc := by decide
theorem test_decode_crd : decode 0x22410008 0 = .ok (.crd 0x41 8) := by decide
theorem test_decode_lrd : decode 0x23000007 0 = .ok (.lrd 7) := by decide
theorem test_decode_nrd : decode 0x2400000E 0 = .ok (.nrd 14) := by decide
theorem test_decode_estart : decode 0x30000000 0 = .ok .estart := by decide
theorem test_decode_esym : decode 0x31410000 0 = .ok (.esym 0x41) := by decide
theorem test_decode_eflush : decode 0x32000000 0 = .ok .eflush := by decide
theorem test_decode_bpush : decode 0x33000004 0xB0000000 = .ok (.bpush 4 0xB0000000) := by decide
theorem test_decode_dstart : decode 0x40000000 0 = .ok .dstart := by decide
theorem test_decode_dsym : decode 0x41000000 0 = .ok .dsym := by decide
theorem test_decode_bget : decode 0x42000000 0 = .ok .bget := by decide
/-- V-S3's two words. -/
theorem test_decode_illegal : decode 0xFF000000 0 = .error (.illegalOpcode 0xFF)
    ∧ decode 0x02000000 0 = .error (.illegalOpcode 0x02) := by decide

/-- A row's word placed for the fetch runs as the very next step (opcode 0x12 of R98, symbol 0x79). -/
theorem test_placed_word_runs_next :
    (nextOf (step ({ base with freq := freqXY }.withFetchWord 32 0x12790000)) base).result0 = 1 := by
  decide +kernel

/-! ### One step of each command -/

/-- V-S1. -/
theorem test_nop : results (after .nop base) = (0, 0, 0x00000002) := by decide +kernel

/-- V-S2, on a state with a tree, a session and bytes in the FIFO. -/
theorem test_sreset :
    let t := after .sreset { decodingXY with pending := some ⟨0x01000000, 0⟩, cmd := 0x01000000 }
    t.statusWord = 0x00000002 ∧ t.cmd = 0x01000000 ∧ t.total = 0 ∧ t.inq = [] ∧ t.ctrlWord = 0 := by
  decide +kernel

/-- V-S3. -/
theorem test_illegal :
    (nextOf (sequencerTurn { base with pending := some ⟨0xFF000000, 0⟩ }) base).statusWord
      = 0x01001006 := by decide +kernel

/-- V-F2. -/
theorem test_fclr : symEntry (after .fclr treeXY).freq 0x78 = 0 := by decide +kernel

/-- V-F3. -/
theorem test_fwr : symEntry (after (.fwr 0x42 6) base).freq 0x42 = 6
    ∧ (after (.fwr 0x42 6) base).result0 = 0 := by decide +kernel

/-- V-F1's FRD. -/
theorem test_frd :
    results (after (.frd 0x41) { base with freq := setSymEntry base.freq 0x41 4 })
      = (4, 0, 0x00000002) := by decide +kernel

/-- V-F1, its first FINC. -/
theorem test_finc : results (after (.finc 0x41) base) = (1, 0, 0x00000002) := by decide +kernel

/-- V-F4. -/
theorem test_finc_overflow :
    let t := after (.finc 7) { base with freq := setSymEntry base.freq 7 0xFFFFFFFF }
    results t = (0xFFFFFFFF, 0, 0x04004006) ∧ symEntry t.freq 7 = 0xFFFFFFFF := by decide +kernel

/-- V-T2: the lower frequency goes left. -/
theorem test_build :
    let t := after .build { base with freq := freqXY }
    results t = (2, 4, 0x00000022) ∧ t.node[2] = .internal 4 1 0 ∧ t.root = some 2 := by decide +kernel

/-- V-T9. -/
theorem test_build_overflow :
    results (after .build { base with
      freq := setSymEntry (setSymEntry base.freq 7 0xFFFFFFFF) 8 1 }) = (0, 0, 0x05005006) := by
  decide +kernel

/-- V-T2's GENC. -/
theorem test_genc :
    let t := after .genc treeXY
    results t = (0x0101, 4, 0x00000062) ∧ symEntry t.code 0x79 = .present [false]
      ∧ symEntry t.code 0x78 = .present [true] ∧ t.leafOrd[0] = 1 ∧ t.leafOrd[1] = 0 := by decide +kernel

/-- V-T8's GENC: the single leaf has a code of length 0. -/
theorem test_genc_single_leaf :
    results (after .genc treeA) = (0, 0, 0x00000462)
      ∧ symEntry (after .genc treeA).code 0x41 = .present [] := by decide +kernel

/-- V-C1's CRD of 'C', whose code is 1010. -/
theorem test_crd :
    results (after (.crd 0x43 0) { tableXY with
      code := setSymEntry codeXY 0x43 (.present [true, false, true, false]) })
      = (0xA0000000, 0x104, 0x00000062) := by decide +kernel

/-- V-C5: NOT_READY beats RANGE. -/
theorem test_crd_not_ready : (after (.crd 0 9) base).cc = .notReady := by decide +kernel

/-- V-T2's leaf order begins with 'y' = 1. -/
theorem test_lrd : results (after (.lrd 0) tableXY) = (0x79, 1, 0x00000062) := by decide +kernel

/-- V-C1's LRD past the last leaf. -/
theorem test_lrd_range : (after (.lrd 2) tableXY).cc = .range := by decide +kernel

/-- V-T2's NRD 2. -/
theorem test_nrd : results (after (.nrd 2) treeXY) = (0x80400000, 4, 0x00000022) := by decide +kernel

/-- V-T8's NRD 1. -/
theorem test_nrd_range : (after (.nrd 1) treeA).cc = .range := by decide +kernel

/-- ESTART discards the pending bits (44_encode.md R165). -/
theorem test_estart :
    results (after .estart { tableXY with pend := [true] }) = (0, 0, 0x000000E2) := by decide +kernel

/-- ESYM 'x' of V-T2, whose code is 1, as the eighth bit of a byte (43_bit_buffer.md R152). -/
theorem test_esym :
    let t := after (.esym 0x78) { encodingXY with pend := [true, false, true, true, false, false, false] }
    results t = (1, 1, 0x000000E2) ∧ t.outq = [0xB1] ∧ t.pend = [] := by decide +kernel

/-- An absent symbol ends the session with NO_SYMBOL (V-S9). -/
theorem test_esym_no_symbol :
    (after (.esym 0x5A) encodingXY).cc = .noSymbol ∧ (after (.esym 0x5A) encodingXY).encActive = false := by
  decide +kernel

/-- S1's EFLUSH: 1011 is flushed as 0xB0. -/
theorem test_eflush :
    let t := after .eflush { base with pend := [true, false, true, true] }
    results t = (1, 4, 0x00000002) ∧ t.outq = [0xB0] := by decide +kernel

/-- V-E7, its held EFLUSH: BUSY stays 1 and the bit stays pending. -/
theorem test_eflush_holds :
    let t := after .eflush { base with
      outDepth := 1, outq := [0], pend := [true], pending := some ⟨0x32000000, 0⟩ }
    t.statusWord = 0x00010001 ∧ t.outq = [0] := by decide +kernel

/-- V-B2's second BPUSH. -/
theorem test_bpush :
    let t := after (.bpush 32 0x12345678) { base with pend := [true, false, true] }
    results t = (4, 32, 0x00030002) ∧ t.outq = [0xA2, 0x46, 0x8A, 0xCF] := by decide +kernel

/-- V-B4. -/
theorem test_bpush_range : (after (.bpush 33 0) base).cc = .range := by decide +kernel

/-- DSTART discards the residual bits and loads DEC_REM (45_decode.md R180). -/
theorem test_dstart :
    results (after .dstart { treeXY with resid := [true] }) = (4, 0, 0x00000122)
      ∧ (after .dstart treeXY).decRem = 4 := by decide +kernel

/-- DSYM of the first bit of 0x8A on V-T2's tree: 1 is 'x' (45_decode.md R182). -/
theorem test_dsym :
    let t := after .dsym decodingXY
    results t = (0x78, 1, 0x00700122) ∧ t.outq = [0x78] ∧ t.decRem = 3 := by decide +kernel

/-- V-D2: a single-leaf tree decodes with no input. -/
theorem test_dsym_single_leaf :
    let t := after .dsym { treeA with decActive := true, decRem := 4 }
    results t = (0x41, 0, 0x00000522) ∧ t.decRem = 3 := by decide +kernel

/-- V-B6. -/
theorem test_bget :
    let t := after .bget { base with inq := [0x8A] }
    results t = (1, 0, 0x00700002) ∧ t.resid = [false, false, false, true, false, true, false] := by
  decide +kernel

/-- V-S6's BGET. -/
theorem test_bget_truncated : (after .bget { base with inEos := true }).statusWord = 0x06006006 := by
  decide +kernel

/-! ### Host accesses -/

/-- V-S10. -/
theorem test_host_reads :
    (hostRead 0x00 base).1 = 0x48434201 ∧ (hostRead 0x34 base).1 = 0x00400040
      ∧ (hostRead 0x38 base).1 = 0 ∧ (performAccess (.read 0x02 4) base).readLanes = [0, 0, 0, 0] := by
  decide +kernel

/-- V-S4: a CMD write while BUSY = 1 is dropped. -/
theorem test_cmd_overrun :
    let t := performAccess (writeAccess 0x0C 0)
      { base with
        ieDone := true, ieErr := true, ieOvr := true, cmd := 0x42000000, pending := some ⟨0x42000000, 0⟩ }
    t.statusWord = 0x00000009 ∧ t.irq = true ∧ t.cmd = 0x42000000 := by decide +kernel

/-! ### Witnesses: for each statement with hypotheses, values that meet all of them -/

theorem below_two {P : NodeId → Prop} (h0 : P 0) (h1 : P 1) (i : NodeId) (h : i.val < 2) : P i := by
  obtain ⟨i, hi⟩ := i
  have h : i < 2 := h
  interval_cases i
  · exact h0
  · exact h1

theorem below_three {P : NodeId → Prop} (h0 : P 0) (h1 : P 1) (h2 : P 2) (i : NodeId) (h : i.val < 3) :
    P i := by
  obtain ⟨i, hi⟩ := i
  have h : i < 3 := h
  interval_cases i
  · exact h0
  · exact h1
  · exact h2

theorem ascending_XY : nodeXY[(0 : NodeId)].symbol < nodeXY[(1 : NodeId)].symbol := by decide +kernel

theorem treeShape_XY : TreeShape nodeXY 2 (some 2) where
  count := by decide
  root_eq := by decide
  leaves := below_two (by decide +kernel) (by decide +kernel)
  ascending := fun i j hij hj => by
    revert i
    refine below_two (P := fun j => ∀ i : NodeId, i < j → nodeXY[i].symbol < nodeXY[j].symbol)
      (fun i h => absurd h (by simp)) (fun i h => ?_) j hj
    have h : i.val < 1 := h
    obtain rfl : i = 0 := Fin.ext (by simpa using h)
    exact ascending_XY
  merges := fun i h1 h2 => below_three (P := fun i => 2 ≤ i.val → isMergeNode nodeXY i = true)
    (fun h => absurd h (by decide)) (fun h => absurd h (by decide)) (fun _ => by decide +kernel) i h2 h1
  parent := below_two
    ⟨2, by decide, by decide +kernel, below_three (fun h => absurd h (by decide +kernel))
      (fun h => absurd h (by decide +kernel)) (fun _ => rfl)⟩
    ⟨2, by decide, by decide +kernel, below_three (fun h => absurd h (by decide +kernel))
      (fun h => absurd h (by decide +kernel)) (fun _ => rfl)⟩

theorem treeShape_A : TreeShape treeA.node 1 (some 0) where
  count := by decide
  root_eq := by decide
  leaves := fun i h => by
    obtain rfl : i = 0 := Fin.ext (by simpa using h)
    decide +kernel
  ascending := fun i j hij hj => by
    have hij : i.val < j.val := hij
    omega
  merges := fun i h1 h2 => absurd h2 (by omega)
  parent := fun c h => absurd h (by simp)

theorem exec_next {i : Instr} {s : State} (h : isNext (exec i s) = true) :
    exec i s = .next (after i s) := eq_next_of_isNext h

/-- V-T9 and V-T10: the largest sum that fits and the smallest that does not. -/
def freqFull : Vector Word 256 := setSymEntry (Vector.replicate 256 0) 7 0xFFFFFFFF

def freqOver : Vector Word 256 := setSymEntry freqFull 8 1

theorem witness_SresetRestoresResetValues :
    ({ base with pending := some ⟨0x01000000, 0⟩ } : State).pending = some ⟨0x01000000, 0⟩ := rfl

theorem witness_IllegalCommandsReportIllegal :
    let c : Command := ⟨0x02000000, 0⟩
    ({ base with pending := some c } : State).rst = false
      ∧ ({ base with pending := some c } : State).pending = some c
      ∧ (opField c.word).toNat ∉ definedOps := by decide +kernel

/-- One count below the largest, and the largest. -/
theorem witness_FincCountsOrReportsOverflow :
    (symEntry (setSymEntry base.freq 7 0xFFFFFFFE) 7).toNat < 2 ^ 32 - 1
      ∧ (symEntry freqFull 7).toNat = 2 ^ 32 - 1 := by decide +kernel

theorem witness_FrequencyScanCountsOccurrences :
    ∀ sym, ([0x41, 0x42, 0x41] : List Byte).count sym < 2 ^ 32 :=
  fun _ => List.count_le_length.trans_lt (by decide)

theorem witness_BuildPublishesTheTree : freqTotal freqFull ≤ 2 ^ 32 - 1 := by decide +kernel

theorem witness_BuildOverflowLeavesNoTree : 2 ^ 32 - 1 < freqTotal freqOver := by decide +kernel

theorem witness_BuiltTreeHasTheShape :
    freqTotal freqXY ≤ 2 ^ 32 - 1
      ∧ exec .build { base with freq := freqXY } = .next (after .build { base with freq := freqXY })
      ∧ (allSymbols.filter fun sym => symEntry freqXY sym ≠ 0)[(1 : NodeId).val]? = some 0x79
      ∧ (after .build { base with freq := freqXY }).root = some 2 :=
  ⟨by decide +kernel, exec_next (by decide +kernel), by decide +kernel, by decide +kernel⟩

/-- The frequency table of V-T3: 'a' = 1, 'b' = 1, 'c' = 2. -/
def freqABC : Vector Word 256 :=
  setSymEntry (setSymEntry (setSymEntry (Vector.replicate 256 0) 0x61 1) 0x62 1) 0x63 2

/-- The first merge of V-T3, which leaves the leaf 'c' in the queue, and the last one. -/
theorem witness_BuildPutsTheLowerKeyLeft :
    let s : State := { base with freq := freqABC }
    freqTotal freqABC ≤ 2 ^ 32 - 1 ∧ exec .build s = .next (after .build s)
      ∧ (4 : NodeId).val < 2 * alphabetSize freqABC - 1
      ∧ (after .build s).node[(3 : NodeId)] = .internal 2 0 1
      ∧ (after .build s).node[(4 : NodeId)] = .internal 4 2 3
      ∧ (2 : NodeId) < 3 ∧ (2 : NodeId) ≠ 0 ∧ (2 : NodeId) ≠ 1
      ∧ ∀ j : NodeId, j < 3 → (after .build s).node[j].hasChild 2 = false :=
  ⟨by decide +kernel, exec_next (by decide +kernel), by decide +kernel, by decide +kernel,
    by decide +kernel, by decide, by decide, by decide,
    below_three (by decide +kernel) (by decide +kernel) (by decide +kernel)⟩

theorem witness_BuildDependsOnFrequenciesAlone :
    exec .build { base with freq := freqXY } = .next (after .build { base with freq := freqXY })
      ∧ exec .build { treeA with freq := freqXY, freeCount := 5 }
          = .next (after .build { treeA with freq := freqXY, freeCount := 5 })
      ∧ (after .build { base with freq := freqXY }).treeValid = true :=
  ⟨exec_next (by decide +kernel), exec_next (by decide +kernel), by decide +kernel⟩

/-- A leaf and, at the end of the range, the root. -/
theorem witness_NrdReadsOneNode :
    treeXY.treeValid = true ∧ treeXY.nleaf.toNat ≠ 0 ∧ (2 : NodeId).val ≤ 2 * treeXY.nleaf.toNat - 2
      ∧ treeXY.node[(0 : NodeId)] = .leaf 0x78 3 ∧ treeXY.node[(2 : NodeId)] = .internal 4 1 0 := by
  decide +kernel

theorem witness_GencPublishesTheCodes : treeXY.treeValid = true := rfl

theorem witness_GencCodesReachTheirLeaves :
    treeXY.treeValid = true ∧ exec .genc treeXY = .next (after .genc treeXY)
      ∧ TreeShape treeXY.node treeXY.nleaf.toNat treeXY.root ∧ (1 : NodeId).val < treeXY.nleaf.toNat :=
  ⟨rfl, exec_next (by decide +kernel), treeShape_XY, by decide +kernel⟩

theorem witness_GencCodesArePrefixFree :
    treeXY.treeValid = true ∧ exec .genc treeXY = .next (after .genc treeXY)
      ∧ (0x78 : Byte) ≠ 0x79 ∧ symEntry (after .genc treeXY).code 0x78 = .present [true]
      ∧ symEntry (after .genc treeXY).code 0x79 = .present [false] :=
  ⟨rfl, exec_next (by decide +kernel), by decide, by decide +kernel, by decide +kernel⟩

/-- Two leaves, and the single leaf. -/
theorem witness_GencCodeLengthsAreBounded :
    (treeXY.treeValid = true ∧ TreeShape treeXY.node treeXY.nleaf.toNat treeXY.root
      ∧ exec .genc treeXY = .next (after .genc treeXY)
      ∧ symEntry (after .genc treeXY).code 0x78 = .present [true] ∧ 2 ≤ treeXY.nleaf.toNat)
    ∧ (treeA.treeValid = true ∧ TreeShape treeA.node treeA.nleaf.toNat treeA.root
      ∧ exec .genc treeA = .next (after .genc treeA)
      ∧ symEntry (after .genc treeA).code 0x41 = .present [] ∧ treeA.nleaf.toNat = 1) :=
  ⟨⟨rfl, treeShape_XY, exec_next (by decide +kernel), by decide +kernel, by decide +kernel⟩,
    ⟨rfl, treeShape_A, exec_next (by decide +kernel), by decide +kernel, by decide +kernel⟩⟩

/-- The empty tree of V-T7, and two leaves. -/
theorem witness_GencReportsTheLengths :
    let empty : State := { base with treeValid := true, treeEmpty := true }
    (empty.treeValid = true ∧ exec .genc empty = .next (after .genc empty) ∧ empty.nleaf = 0)
    ∧ (treeXY.treeValid = true ∧ exec .genc treeXY = .next (after .genc treeXY) ∧ treeXY.nleaf ≠ 0
      ∧ symEntry (after .genc treeXY).code 0x79 = .present [false]) :=
  ⟨⟨rfl, exec_next (by decide +kernel), rfl⟩,
    ⟨rfl, exec_next (by decide +kernel), by decide +kernel, by decide +kernel⟩⟩

/-- The last word of a present code, and of an absent one. -/
theorem witness_CrdReadsOneCodeWord :
    tableXY.codesValid = true ∧ 7 ≤ 7 ∧ symEntry tableXY.code 0x78 = .present [true]
      ∧ (symEntry tableXY.code 0x78).length ≤ 255 ∧ symEntry tableXY.code 0x5A = .absent
      ∧ (symEntry tableXY.code 0x5A).length ≤ 255 := by decide +kernel

/-- The last leaf in order. -/
theorem witness_LrdReadsOneLeaf :
    tableXY.codesValid = true ∧ (1 : Fin 256).val < tableXY.nleaf.toNat
      ∧ tableXY.node[tableXY.leafOrd[(1 : Fin 256)]] = .leaf 0x78 3 := by decide +kernel

/-- Two leaves, and the single leaf. -/
theorem witness_GencListsTheLeavesLeftFirst :
    (treeXY.treeValid = true ∧ TreeShape treeXY.node treeXY.nleaf.toNat treeXY.root
      ∧ exec .genc treeXY = .next (after .genc treeXY) ∧ (0 : Fin 256) < 1
      ∧ (1 : Fin 256).val < treeXY.nleaf.toNat)
    ∧ (treeA.treeValid = true ∧ TreeShape treeA.node treeA.nleaf.toNat treeA.root
      ∧ exec .genc treeA = .next (after .genc treeA) ∧ (0 : Fin 256).val < treeA.nleaf.toNat) :=
  ⟨⟨rfl, treeShape_XY, exec_next (by decide +kernel), by decide, by decide +kernel⟩,
    ⟨rfl, treeShape_A, exec_next (by decide +kernel), by decide +kernel⟩⟩

theorem witness_GencReportsTheTotalBits :
    treeXY.treeValid = true ∧ TreeShape treeXY.node treeXY.nleaf.toNat treeXY.root
      ∧ exec .genc treeXY = .next (after .genc treeXY) :=
  ⟨rfl, treeShape_XY, exec_next (by decide +kernel)⟩

/-- No bits and 32 bits, the ends of the range. -/
theorem witness_BpushPushesArgBits :
    0 ≤ 32 ∧ 32 ≤ 32 ∧ base.pend.length ≤ 7 ∧ (base.pend.length + 0) / 8 ≤ base.outDepth - base.outq.length
      ∧ (base.pend.length + 32) / 8 ≤ base.outDepth - base.outq.length := by decide +kernel

theorem witness_EstartStartsASession : tableXY.codesValid = true := rfl

theorem witness_EsymPushesTheCode :
    encodingXY.encActive = true ∧ symEntry encodingXY.code 0x78 = .present [true]
      ∧ encodingXY.pend.length ≤ 7
      ∧ (encodingXY.pend.length + [true].length) / 8 ≤ encodingXY.outDepth - encodingXY.outq.length := by
  decide +kernel

theorem witness_EsymOfAnAbsentSymbolAbandons :
    encodingXY.encActive = true ∧ symEntry encodingXY.code 0x5A = .absent := by decide +kernel

/-- Nothing pending with a full FIFO, and seven bits pending with one free slot. -/
theorem witness_EflushPadsTheLastByte :
    let empty : State := { base with outDepth := 0 }
    let seven : State := { base with outDepth := 1, pend := List.replicate 7 true }
    (empty.pend.length ≤ 7 ∧ empty.pend = []) ∧ seven.pend.length ≤ 7 ∧ seven.pend ≠ []
      ∧ 1 ≤ seven.outDepth - seven.outq.length := by decide +kernel

theorem witness_EncodedMessageIsItsCodes :
    encodingXY.encActive = true ∧ encodingXY.pend.length ≤ 7 ∧ allPresent codeXY [0x78, 0x79]
      ∧ (encodingXY.pend.length + (bodyBits encodingXY.code [0x78, 0x79]).length) / 8
          ≤ encodingXY.outDepth - encodingXY.outq.length :=
  ⟨by decide +kernel, by decide +kernel, by unfold allPresent; decide +kernel, by decide +kernel⟩

theorem witness_DstartLoadsTotal : treeXY.treeValid = true := rfl

/-- A byte to fetch. -/
theorem witness_DsymDecodesOneSymbol :
    decodingXY.decActive = true ∧ decodingXY.decRem ≠ 0 ∧ decodingXY.root = some 2
      ∧ descend decodingXY.node 2 decodingXY.avail = some (1, 0, 0x78)
      ∧ decodingXY.outq.length < decodingXY.outDepth := by decide +kernel

theorem witness_DsymEndsTheSession :
    let short : State := { decodingXY with inq := [], inEos := true }
    let last : State := { decodingXY with decRem := 0 }
    (short.decActive = true ∧ short.decRem ≠ 0 ∧ short.root = some 2
      ∧ descend short.node 2 short.avail = none ∧ short.inEos = true)
    ∧ last.decActive = true ∧ last.decRem = 0 := by decide +kernel

theorem witness_DescendReachesALeaf :
    TreeShape nodeXY 2 (some 2) ∧ 2 - 1 ≤ [true].length ∧ TreeShape treeA.node 1 (some 0)
      ∧ 1 - 1 ≤ ([] : BitString).length :=
  ⟨treeShape_XY, by decide, treeShape_A, by decide⟩

/-- A residual bit, and a byte to fetch. -/
theorem witness_BgetReadsOneBit :
    ({ base with resid := [true] } : State).avail = true :: []
      ∧ ({ base with inq := [0x80] } : State).avail = true :: List.replicate 7 false := by decide +kernel

/-- The decode procedure's state: a session with no valid code table, two symbols in the input. -/
def bodyXY : State := { decodingXY with inq := [], resid := [true, false] }

theorem codesDescend_bodyXY : CodesDescend codeXY bodyXY := by
  have key : ∀ sym, symEntry codeXY sym = .absent ∨ (sym = 0x78 ∧ symEntry codeXY sym = .present [true])
      ∨ (sym = 0x79 ∧ symEntry codeXY sym = .present [false]) := by decide +kernel
  have h0 : nodeXY[(0 : NodeId)] = .leaf 0x78 3 := by decide +kernel
  have h1 : nodeXY[(1 : NodeId)] = .leaf 0x79 1 := by decide +kernel
  have h2 : nodeXY[(2 : NodeId)] = .internal 4 1 0 := by decide +kernel
  have leaf : ∀ (n : NodeId) (sym : Byte) (f : Word) (a : BitString), nodeXY[n] = .leaf sym f →
      descend nodeXY n a = some (0, n, sym) := by
    intro n sym f a h
    cases a <;> simp [descend, h]
  intro sym p hp rest
  rcases key sym with h | ⟨rfl, h⟩ | ⟨rfl, h⟩ <;> rw [h] at hp <;> cases hp
  · refine ⟨2, 0, rfl, ?_⟩
    show descend nodeXY 2 (true :: rest) = some (1, 0, 0x78)
    simp [descend, h2, leaf 0 _ _ rest h0]
  · refine ⟨2, 1, rfl, ?_⟩
    show descend nodeXY 2 (false :: rest) = some (1, 1, 0x79)
    simp [descend, h2, leaf 1 _ _ rest h1]

theorem witness_DecodedMessageIsTheOriginal :
    CodesDescend codeXY bodyXY ∧ bodyXY.codesValid = false ∧ bodyXY.decActive = true
      ∧ allPresent codeXY [0x78, 0x79] ∧ bodyXY.avail = bodyBits codeXY [0x78, 0x79] ++ []
      ∧ [0x78, 0x79].length ≤ bodyXY.decRem.toNat
      ∧ bodyXY.outq.length + [0x78, 0x79].length ≤ bodyXY.outDepth :=
  ⟨codesDescend_bodyXY, rfl, rfl, by unfold allPresent; decide +kernel, by decide +kernel,
    by decide +kernel, by decide +kernel⟩

theorem witness_CompletionCodesFollowTheTable :
    Instr.nop ≠ .sreset ∧ holds .nop base = false ∧ exec .nop base = .next (after .nop base) :=
  ⟨by decide, by decide +kernel, exec_next (by decide +kernel)⟩

/-- A failure that leaves all as it was, FREQ_OVF, the two TRUNCATED and TOTAL_OVF. -/
theorem witness_FailedCommandsKeepTheTables :
    (holds .genc base = false ∧ exec .genc base = .next (after .genc base)
      ∧ completionCode .genc base ≠ .ok)
    ∧ completionCode (.finc 7) { base with freq := freqFull } = .freqOvf
    ∧ completionCode .bget { base with inEos := true } = .truncated
    ∧ completionCode .dsym { decodingXY with inq := [], inEos := true } = .truncated
    ∧ completionCode .build { base with freq := freqOver } = .totalOvf :=
  ⟨⟨by decide +kernel, exec_next (by decide +kernel), by decide +kernel⟩, by decide +kernel,
    by decide +kernel, by decide +kernel, by decide +kernel⟩

theorem witness_HeldCommandsChangeNothing : holds .bget base = true := by decide +kernel

/-- A command that changes the write side, and one that changes the read side. -/
theorem witness_ReadAndWriteSidesAreSeparate :
    (Instr.bpush 1 0 ≠ .sreset ∧ exec (.bpush 1 0) base = .next (after (.bpush 1 0) base)
      ∧ (after (.bpush 1 0) base).pend ≠ base.pend)
    ∧ (Instr.bget ≠ .sreset ∧ exec .bget decodingXY = .next (after .bget decodingXY)
      ∧ (after .bget decodingXY).inq ≠ decodingXY.inq) :=
  ⟨⟨by decide, exec_next (by decide +kernel), by decide +kernel⟩,
    ⟨by decide, exec_next (by decide +kernel), by decide +kernel⟩⟩

/-- Misaligned, of another width, the first and the last reserved offset, and a defined access. -/
theorem witness_HostAccessesAreAlignedLittleEndianWords :
    ¬ ((0x21 : Byte).toNat % 4 = 0 ∧ 4 = 4) ∧ ¬ ((0x20 : Byte).toNat % 4 = 0 ∧ 1 = 4)
      ∧ 0x38 ≤ (0x38 : Byte).toNat ∧ 0x38 ≤ (0xFF : Byte).toNat ∧ (0x34 : Byte).toNat % 4 = 0 := by decide

theorem witness_StatusInv_FifoInv : StatusInv base ∧ FifoInv base :=
  ⟨by constructor <;> decide +kernel, by constructor <;> decide +kernel⟩

theorem witness_RegisterReadsShowTheState :
    StatusInv base ∧ FifoInv base ∧ (0x34 : Byte).toNat ≠ 0x20
      ∧ (0x30 : Byte) ∈ ([0x00, 0x14, 0x18, 0x20, 0x24, 0x28, 0x2C, 0x30, 0x34] : List Byte)
      ∧ base.outq = [] :=
  ⟨witness_StatusInv_FifoInv.1, witness_StatusInv_FifoInv.2, by decide, by decide, rfl⟩

/-- The clause of a byte to read. -/
theorem witness_RegisterReadsShowTheState_outData :
    let s : State := { base with outq := [0xFF] }
    StatusInv s ∧ FifoInv s ∧ s.outq = 0xFF :: [] :=
  ⟨by constructor <;> decide +kernel, by constructor <;> decide +kernel, rfl⟩

theorem witness_CmdWriteIssuesOrIsDropped :
    base.pending = none ∧ ({ base with pending := some ⟨0, 0⟩ } : State).pending = some ⟨0, 0⟩ :=
  ⟨rfl, rfl⟩

/-- A full FIFO, the end of input, room for a byte, and the two ends of the OUT FIFO's clause. -/
theorem witness_FifoPortsPushAndPop :
    let full : State := { base with inDepth := 1, inq := [0] }
    full.inq.length = full.inDepth ∧ ({ base with inEos := true } : State).inEos = true
      ∧ base.inEos = false ∧ base.inq.length ≠ base.inDepth
      ∧ ({ base with outq := [0x8A] } : State).outq = 0x8A :: [] ∧ base.outq = [] := by decide +kernel

theorem witness_ResetLeavesTheResetValues :
    (0x38 : Byte).toNat ≠ 0x00 ∧ (0x38 : Byte).toNat ≠ 0x34 := by decide

/-- Asserting the input, and ending its assertion. -/
theorem witness_ResetInputRestoresResetValues :
    let on : State := { decodingXY with schedule := [.resetInput true] }
    let off : State := { base with rst := true, schedule := [.resetInput false] }
    step on = .next (nextOf (step on) on) ∧ off.rst = true ∧ step off = .next (nextOf (step off) off) :=
  ⟨eq_next_of_isNext (by decide +kernel), by decide +kernel, eq_next_of_isNext (by decide +kernel)⟩

/-- The widest index. -/
theorem witness_DecodeOfEncodeIsTheCommand : (Instr.bpush 65535 0xFFFFFFFF).wellFormed = true := by decide

/-- V-T12's word, and the first and the last OP of the map with every other field filled. -/
theorem witness_UnusedFieldsAreIgnored :
    (opField 0x20FFFFFF).toNat ∈ definedOps ∧ (opField 0x00FFFFFF).toNat ∈ definedOps
      ∧ (opField 0x42FFFFFF).toNat ∈ definedOps := by decide

/-- V-T12: the unused fields of BUILD cleared give its word of R105; FWR keeps SYM and ARG, BPUSH IDX and
ARG, CRD SYM and IDX. -/
theorem test_clearUnused :
    clearUnused 0x20FFFFFF = 0x20000000 ∧ clearUnusedArg 0x20FFFFFF 6 = 0
      ∧ clearUnused 0x1142FFFF = 0x11420000 ∧ clearUnusedArg 0x1142FFFF 6 = 6
      ∧ clearUnused 0x33FF0004 = 0x33000004 ∧ clearUnusedArg 0x33FF0004 6 = 6
      ∧ clearUnused 0x22410001 = 0x22410001 := by decide +kernel

theorem witness_StepRunsTheDecodedCommand :
    let s : State := { base with pending := some ⟨0x12790000, 0⟩ }
    s.rst = false ∧ s.pending = some ⟨0x12790000, 0⟩ ∧ decode 0x12790000 0 = .ok (.frd 0x79)
      ∧ s.schedule = [] ∧ ({ s with schedule := [.sequencer] } : State).schedule = .sequencer :: [] := by
  decide +kernel

theorem witness_HostTurnIsOneAccess :
    let s : State := { base with schedule := [.host pseudoGet] }
    s.schedule = .host pseudoGet :: [] ∧ s.rst = false ∧ ({ s with rst := true } : State).rst = true
      ∧ base.rst = false ∧ base.pending = none ∧ base.schedule = [] := by decide +kernel

theorem witness_EveryStepKeepsTheStatusInvariants :
    StatusInv base ∧ FifoInv base ∧ RegisterInv base ∧ step base = .next (nextOf (step base) base) :=
  ⟨witness_StatusInv_FifoInv.1, witness_StatusInv_FifoInv.2,
    by constructor <;> decide +kernel,
    eq_next_of_isNext (by decide +kernel)⟩

/-- A state whose next step is a GENC on a tree of the shape. -/
def gencPending : State := { treeXY with pending := some ⟨0x21000000, 0⟩, cmd := 0x21000000 }

theorem treeInv_gencPending : TreeInv gencPending := by
  refine fun _ => ⟨treeShape_XY, fun r hr => ?_⟩
  obtain rfl : r = 2 := by
    have hr : some (2 : NodeId) = some r := hr
    exact (Option.some.inj hr).symm
  exact (by decide +kernel : gencPending.node[(2 : NodeId)].freq = gencPending.total)

theorem witness_EveryStepKeepsTheTree :
    TreeInv gencPending ∧ gencPending.treeValid = true
      ∧ step gencPending = .next (nextOf (step gencPending) gencPending) :=
  ⟨treeInv_gencPending, rfl, eq_next_of_isNext (by decide +kernel)⟩

theorem witness_EveryStepKeepsTheLeafOrder :
    TreeInv gencPending ∧ LeafOrderInv gencPending
      ∧ step gencPending = .next (nextOf (step gencPending) gencPending)
      ∧ (nextOf (step gencPending) gencPending).codesValid = true :=
  ⟨treeInv_gencPending, fun h => absurd h (by decide +kernel), eq_next_of_isNext (by decide +kernel),
    by decide +kernel⟩

theorem witness_EveryStepKeepsTheCodes :
    CodesInv gencPending ∧ step gencPending = .next (nextOf (step gencPending) gencPending)
      ∧ (nextOf (step gencPending) gencPending).codesValid = true :=
  ⟨fun h => absurd h (by decide +kernel), eq_next_of_isNext (by decide +kernel), by decide +kernel⟩

theorem witness_NoStepFaults : RegisterInv base ∧ LeafOrderInv base :=
  ⟨by constructor <;> decide +kernel,
    fun h => absurd h (by decide +kernel)⟩

end Sys2Proof.Tests
end

section
/-! SUPPORT. What one step, one host access and one command can make of a state: the case analyses that
the proofs about every step share. -/

namespace Sys2Proof.Machine

/-! ### What a turn or a command answers -/

/-- `P` holds of the next state a turn or a command answers, if it answers one. -/
def NextIs (P : State → Prop) : Result → Prop
  | .next t => P t
  | .fault _ => True
  | .refused _ => True

theorem nextIs_iff {P : State → Prop} {r : Result} : NextIs P r ↔ ∀ t, r = .next t → P t := by
  cases r <;> simp [NextIs]

theorem NextIs.imp {P Q : State → Prop} {r : Result} (h : NextIs P r) (hpq : ∀ t, P t → Q t) :
    NextIs Q r :=
  nextIs_iff.2 fun t e => hpq t (nextIs_iff.1 h t e)

/-! ### What a command can make of a state -/

/-- The tree that a BUILD whose sum fits publishes (41_tree_builder.md R120). -/
def State.withBuiltTree (s : State) : State :=
  { s.clearResults.invalidateTree with
    node := (buildTree s.freq (freeArena s.freeCount)).1
    root := (buildTree s.freq (freeArena s.freeCount)).2
    treeValid := true
    treeEmpty := (presentSymbols s.freq).length == 0
    treeSingle := (presentSymbols s.freq).length == 1
    total := BitVec.ofNat 32 (frequencySum s.freq)
    nleaf := BitVec.ofNat 9 (presentSymbols s.freq).length
    result0 := BitVec.ofNat 32 (presentSymbols s.freq).length
    result1 := BitVec.ofNat 32 (frequencySum s.freq)
    freeCount := s.freeCount + 1 }

/-- The code and leaf order tables that GENC publishes, with its results (42_code_table.md R135). -/
def State.withCodes (s : State) (a b : Word) : State :=
  { s with
    code := codesOfLeaves s.node (leavesInOrder s.node s.root)
    leafOrd := storeLeafOrder (leavesInOrder s.node s.root) 0 (freeLeafOrder s.freeCount)
    codesValid := true
    result0 := a
    result1 := b
    freeCount := s.freeCount + 1 }

/-- What a command can make of a state: it holds, or it completes having written the results and the
frequency table alone, or the write side too, or the read side too; SRESET, BUILD and GENC, the commands
that write the tree and its codes, have their own rules (46_system.md R195, R198, R199; 43_bit_buffer.md
R156). -/
inductive CommandMakes (s : State) : State → Prop where
  | held : CommandMakes s s
  | results (f : Vector Word 256) (a b : Word) (cc : CompletionCode) :
      CommandMakes s ({ s with freq := f, result0 := a, result1 := b }.finish cc)
  | writeSide (p : BitString) (o : List Byte) (e : Bool) (a b : Word) (cc : CompletionCode)
      (pend : s.pend.length ≤ 7 → p.length ≤ 7)
      (outq : s.pend.length ≤ 7 → s.outq.length ≤ s.outDepth → o.length ≤ s.outDepth)
      (enc : e = true → s.encActive = true ∨ s.codesValid = true) :
      CommandMakes s
        ({ s with pend := p, outq := o, encActive := e, result0 := a, result1 := b }.finish cc)
  | readSide (r : BitString) (i o : List Byte) (n : Word) (d : Bool) (a b : Word) (cc : CompletionCode)
      (bits : s.resid.length ≤ 8 → r.length ≤ 8 ∧ i.length ≤ s.inq.length)
      (outq : s.outq.length ≤ s.outDepth → o.length ≤ s.outDepth)
      (rem : n.toNat ≤ s.decRem.toNat ∨ n = s.total)
      (dec : d = true → s.decActive = true ∨ s.treeValid = true) :
      CommandMakes s
        ({ s with
            resid := r, inq := i, outq := o, decRem := n, decActive := d, result0 := a
            result1 := b }.finish cc)
  | sreset : CommandMakes s ({ s.resetAll with cmd := s.currentWord }.finish .ok)
  | buildOverflow : CommandMakes s (s.invalidateTree.clearResults.finish .totalOvf)
  | build (fits : frequencySum s.freq < 2 ^ 32) : CommandMakes s (s.withBuiltTree.finish .ok)
  | genc (a b : Word) (valid : s.treeValid = true) : CommandMakes s ((s.withCodes a b).finish .ok)

/-- A failed command with no session effect writes its results alone (60_exceptions.md R210). -/
theorem reject_makes (cc : CompletionCode) (s : State) : NextIs (CommandMakes s) (reject cc s) :=
  CommandMakes.results s.freq 0 0 cc

theorem hold_makes (s : State) : NextIs (CommandMakes s) (hold s) := CommandMakes.held

theorem complete_results_makes (s : State) (f : Vector Word 256) (a b : Word) :
    NextIs (CommandMakes s) (complete { s with freq := f, result0 := a, result1 := b }) :=
  CommandMakes.results f a b .ok

/-- Pushing bits where the OUT FIFO has room for their bytes (43_bit_buffer.md R151). -/
theorem complete_pushBits_makes (s : State) (p : BitString) (a b : Word)
    (room : s.outRoom (s.pushCount p.length) = true) :
    NextIs (CommandMakes s)
      (complete { s.clearResults.pushBits p with result0 := a, result1 := b }) := by
  rw [State.outRoom, decide_eq_true_eq, State.pushCount] at room
  rw [pushBits_frame]
  refine CommandMakes.writeSide _ _ s.encActive a b .ok (fun h => ?_) (fun h ho => ?_) Or.inl
  · rw [pushBits_pend_length p s.clearResults h]
    omega
  · rw [pushBits_outq_length p s.clearResults h]
    simp only [State.clearResults_outq, State.clearResults_pend]
    omega

theorem execFinc_makes (sym : Byte) (s : State) : NextIs (CommandMakes s) (execFinc sym s) := by
  unfold execFinc
  split
  · exact CommandMakes.results s.freq _ 0 .freqOvf
  · exact complete_results_makes ..

theorem execCrd_makes (sym : Byte) (idx : Nat) (s : State) : NextIs (CommandMakes s) (execCrd sym idx s) := by
  unfold execCrd
  split
  · exact reject_makes ..
  split
  · exact reject_makes ..
  split
  · exact complete_results_makes ..
  · exact complete_results_makes s s.freq ..

theorem execLrd_makes (idx : Nat) (s : State) : NextIs (CommandMakes s) (execLrd idx s) := by
  unfold execLrd
  split
  · exact reject_makes ..
  split
  · exact reject_makes ..
  split
  · exact complete_results_makes s s.freq ..
  · trivial

theorem execNrd_makes (idx : Nat) (s : State) : NextIs (CommandMakes s) (execNrd idx s) := by
  unfold execNrd
  split
  · exact reject_makes ..
  split
  · exact reject_makes ..
  · exact complete_results_makes s s.freq ..

theorem execBuild_makes (s : State) : NextIs (CommandMakes s) (execBuild s) := by
  unfold execBuild
  dsimp only
  split
  · exact CommandMakes.buildOverflow
  · exact CommandMakes.build (by omega)

/-- GENC with a valid tree publishes the codes (42_code_table.md R135). -/
theorem exec_genc_of_valid {s : State} (h : s.treeValid = true) :
    ∃ a b, exec .genc s = .next ((s.withCodes a b).finish .ok) := by
  simp only [exec, execGenc, h]
  exact ⟨_, _, rfl⟩

theorem execGenc_makes (s : State) : NextIs (CommandMakes s) (execGenc s) := by
  cases hv : s.treeValid with
  | false =>
    rw [execGenc, if_pos hv]
    exact reject_makes ..
  | true =>
    obtain ⟨a, b, h⟩ := exec_genc_of_valid hv
    rw [show execGenc s = _ from h]
    exact CommandMakes.genc a b hv

theorem execEstart_makes (s : State) : NextIs (CommandMakes s) (execEstart s) := by
  unfold execEstart
  split
  · exact reject_makes ..
  · rename_i hc
    exact CommandMakes.writeSide [] s.outq true 0 0 .ok (by simp) (fun _ => id)
      fun _ => .inr (by simpa using hc)

theorem execEsym_makes (sym : Byte) (s : State) : NextIs (CommandMakes s) (execEsym sym s) := by
  unfold execEsym
  split
  · exact reject_makes ..
  split
  · exact CommandMakes.writeSide s.pend s.outq false 0 0 .noSymbol id (fun _ => id) nofun
  dsimp only
  split
  · exact complete_pushBits_makes _ _ _ _ ‹_›
  · exact hold_makes s

theorem execBpush_makes (idx : Nat) (arg : Word) (s : State) :
    NextIs (CommandMakes s) (execBpush idx arg s) := by
  unfold execBpush
  split
  · exact reject_makes ..
  dsimp only
  split
  · exact complete_pushBits_makes _ _ _ _ (by simpa [argBits] using ‹_›)
  · exact hold_makes s

theorem execEflush_makes (s : State) : NextIs (CommandMakes s) (execEflush s) := by
  unfold execEflush
  dsimp only
  generalize hk : (if 0 < s.pend.length then 1 else 0) = k
  split
  · rename_i room
    rw [State.outRoom, decide_eq_true_eq] at room
    rw [flushBits_frame, flushBits_outq]
    refine CommandMakes.writeSide [] _ false _ _ .ok (by simp) (fun _ ho => ?_) nofun
    change (if 0 < s.pend.length then s.outq ++ [byteOfBits s.pend] else s.outq).length ≤ s.outDepth
    split
    · rename_i hp
      rw [if_pos hp] at hk
      rw [List.length_append, List.length_singleton]
      omega
    · exact ho
  · exact hold_makes s

theorem execDstart_makes (s : State) : NextIs (CommandMakes s) (execDstart s) := by
  unfold execDstart
  split
  · exact reject_makes ..
  · rename_i hv
    exact CommandMakes.readSide [] s.inq s.outq s.total true s.total 0 .ok (by simp) id (.inr rfl)
      fun _ => .inr (by simpa using hv)

theorem execDsym_makes (s : State) : NextIs (CommandMakes s) (execDsym s) := by
  unfold execDsym
  split
  · exact reject_makes ..
  split
  · exact CommandMakes.readSide s.resid s.inq s.outq s.decRem false 0 0 .decDone
      (fun h => ⟨h, le_refl _⟩) id (.inl (le_refl _)) nofun
  rename_i hrem
  split
  · trivial
  split
  · split
    · exact CommandMakes.readSide [] [] s.outq s.decRem false 0 0 .truncated (by simp) id
        (.inl (le_refl _)) nofun
    · exact hold_makes s
  · rename_i k _ sym _
    split
    · rename_i room
      rw [consumeBits_frame]
      refine CommandMakes.readSide _ _ (s.outq ++ [sym]) _ s.decActive _ _ .ok
        (consumeBits_bounds k s.clearResults) (fun _ => ?_) (.inl ?_) Or.inl
      · rw [List.length_append, List.length_singleton]
        omega
      · bv_omega
    · exact hold_makes s

theorem execBget_makes (s : State) : NextIs (CommandMakes s) (execBget s) := by
  unfold execBget
  cases ha : s.clearResults.avail with
  | nil =>
    rw [nextBit_none ha]
    cases s.clearResults.inEos
    · exact hold_makes s
    · exact reject_makes ..
  | cons x rest =>
    obtain ⟨t, ht, -, hf, hr, hi⟩ := nextBit_avail ha
    rw [ht, hf]
    exact CommandMakes.readSide t.resid t.inq s.outq s.decRem s.decActive _ 0 .ok
      (fun h => ⟨hr h, hi⟩) id (.inl (le_refl _)) Or.inl

/-- Every command that answers a next state makes one of these (46_system.md R195). -/
theorem exec_makes (i : Instr) (s : State) : NextIs (CommandMakes s) (exec i s) := by
  cases i with
  | nop => exact complete_results_makes s s.freq 0 0
  | sreset => exact CommandMakes.sreset
  | fclr => exact complete_results_makes s _ 0 0
  | fwr sym arg => exact complete_results_makes s _ 0 0
  | frd sym => exact complete_results_makes s s.freq _ 0
  | finc sym => exact execFinc_makes sym s
  | build => exact execBuild_makes s
  | genc => exact execGenc_makes s
  | crd sym idx => exact execCrd_makes sym idx s
  | lrd idx => exact execLrd_makes idx s
  | nrd idx => exact execNrd_makes idx s
  | estart => exact execEstart_makes s
  | esym sym => exact execEsym_makes sym s
  | eflush => exact execEflush_makes s
  | bpush idx arg => exact execBpush_makes idx arg s
  | dstart => exact execDstart_makes s
  | dsym => exact execDsym_makes s
  | bget => exact execBget_makes s

/-! ### What a host access can make of a state -/

/-- What a host access can make of a state: nothing, a read without an effect, a read of OUT_DATA that pops
the head byte, or a write of one register (20_memory.md R70 to R81). -/
inductive AccessMakes (s : State) : State → Prop where
  | ignored : AccessMakes s s
  | read (lanes : List Byte) : AccessMakes s { s with readLanes := lanes }
  | pop (b : Byte) (rest lanes : List Byte) (h : s.outq = b :: rest) :
      AccessMakes s { s with outq := rest, readLanes := lanes }
  | write (r : HostReg) (v : Word) : AccessMakes s (writeReg r v s)

theorem readReg_makes (r : HostReg) (lanes : List Byte) (s : State) :
    AccessMakes s { (readReg r s).2 with readLanes := lanes } := by
  cases r with
  | outData =>
    simp only [readReg]
    unfold readOutData
    split
    · rename_i b rest h
      exact .pop b rest lanes h
    · exact .read lanes
  | _ => exact .read lanes

theorem performAccess_makes (a : HostAccess) (s : State) : AccessMakes s (performAccess a s) := by
  cases a with
  | read off n =>
    simp only [performAccess]
    split
    · unfold hostRead
      split
      · exact readReg_makes ..
      · exact .read _
    · exact .read _
  | write off lanes =>
    simp only [performAccess]
    split
    · unfold hostWrite
      split
      · exact .write ..
      · exact .ignored
    · exact .ignored

/-- A host access leaves the tree, its codes, the frequency table and the bit buffer as they are
(20_memory.md R75 to R81). -/
theorem AccessMakes.frame {s t : State} (m : AccessMakes s t) :
    t = { s with
      ieDone := t.ieDone, ieErr := t.ieErr, ieOvr := t.ieOvr, inEos := t.inEos, done := t.done
      err := t.err, firstErr := t.firstErr, cmdOvr := t.cmdOvr, inOvr := t.inOvr, cmd := t.cmd
      arg := t.arg, pending := t.pending, inq := t.inq, outq := t.outq, readLanes := t.readLanes } := by
  cases m with
  | write r v =>
    cases r with
    | cmd => simp only [writeReg]; unfold writeCmd; split <;> rfl
    | inData => simp only [writeReg]; unfold writeInData; split <;> rfl
    | _ => rfl
  | _ => rfl

/-! ### What a step can make of a state -/

/-- What a turn can make of a state: nothing where the sequencer has no step, one host access or one
command while the reset input is released, ILLEGAL, or the reset values (10_state.md R30, R31;
46_system.md R200; 70_reset_and_hazards.md R240). -/
inductive TurnMakes (s : State) : State → Prop where
  | idle : TurnMakes s s
  | access {t : State} (released : s.rst = false) (h : AccessMakes s t) : TurnMakes s t
  | command {t : State} (h : CommandMakes s t) : TurnMakes s t
  | reset (asserted : Bool) : TurnMakes s { s.resetAll with rst := asserted }

theorem sequencerTurn_makes (s : State) : NextIs (TurnMakes s) (sequencerTurn s) := by
  unfold sequencerTurn
  split
  · exact TurnMakes.idle
  split
  · exact TurnMakes.idle
  unfold execCommand
  split
  · exact (exec_makes _ s).imp fun _ => TurnMakes.command
  · exact (reject_makes .illegal s).imp fun _ => TurnMakes.command

theorem takeTurn_makes (turn : Turn) (s : State) : NextIs (TurnMakes s) (takeTurn turn s) := by
  cases turn with
  | host a =>
    simp only [takeTurn, hostTurn]
    split
    · trivial
    · rename_i hr
      exact TurnMakes.access (by simpa using hr) (performAccess_makes a s)
  | sequencer => exact sequencerTurn_makes s
  | resetInput asserted =>
    simp only [takeTurn, resetTurn]
    split
    · exact TurnMakes.reset asserted
    · exact TurnMakes.idle

/-- A step is one turn, taken from the state with that turn off the schedule (10_state.md R30, R31). -/
theorem step_makes {s t : State} (h : step s = .next t) :
    TurnMakes { s with schedule := s.schedule.tail } t := by
  unfold step at h
  split at h
  · rename_i hs
    have e : { s with schedule := s.schedule.tail } = s := by cases s; simp_all
    rw [e]
    exact nextIs_iff.1 (sequencerTurn_makes s) t h
  · rename_i turn rest hs
    rw [hs]
    exact nextIs_iff.1 (takeTurn_makes turn _) t h

end Sys2Proof.Machine
end

section
/-! SUPPORT. The STATUS, FIFO and register invariants hold at reset and after every step. -/

namespace Sys2Proof.Machine

/-- The invariants that need no tree: STATUS (10_state.md R36), the FIFOs (R57, R58) and the registers
(R37, R44 to R46, R49, R52). -/
structure BlockInv (s : State) : Prop where
  status : StatusInv s
  fifo : FifoInv s
  register : RegisterInv s

/-- `finish` keeps "ERR is clear exactly while FIRST_ERR is OK" (60_exceptions.md R218, R219). -/
theorem errAfter_eq_false_iff {s : State} (h : s.err = false ↔ s.firstErr = .ok) (cc : CompletionCode) :
    errAfter cc s = false ↔ firstErrAfter cc s = .ok := by
  unfold errAfter firstErrAfter
  by_cases hcc : cc = .ok
  · simpa [hcc] using h
  · cases he : s.err
    · simp [hcc]
    · simpa [he] using h

theorem BlockInv.clearResults {s : State} (h : BlockInv s) : BlockInv s.clearResults :=
  ⟨{ h.status with }, { h.fifo with }, { h.register with }⟩

theorem BlockInv.finish {s : State} (h : BlockInv s) (cc : CompletionCode) : BlockInv (s.finish cc) where
  status := { h.status with err_first := errAfter_eq_false_iff h.status.err_first cc }
  fifo := { h.fifo with }
  register := { h.register with cmd := nofun, rst := fun _ => rfl }

/-- After a reset of all state the invariants hold, whatever CMD and the level of the reset input are
(10_state.md R61). -/
theorem blockInv_resetAll {s : State} (h : FifoInv s) (cmd : Word) (rst : Bool) :
    BlockInv { s.resetAll with cmd := cmd, rst := rst } where
  status := by constructor <;> simp
  fifo := { h with inq := Nat.zero_le _, outq := Nat.zero_le _ }
  register := by constructor <;> simp

theorem BlockInv.invalidateTree {s : State} (h : BlockInv s) : BlockInv s.invalidateTree where
  status :=
    { h.status with
      codes_tree := nofun, enc_codes := nofun, dec_tree := nofun, empty_tree := nofun
      single_tree := nofun, not_both := by simp }
  fifo := { h.fifo with }
  register :=
    { h.register with
      no_tree := fun _ => ⟨rfl, rfl, rfl, rfl⟩, leaves := by simp, empty := by simp
      single := by simp, no_root := fun _ => rfl, rem := by simp }

/-! ### BUILD -/

/-- NLEAF as a 9-bit register holds the number of present symbols (10_state.md R46). -/
theorem ofNat_length_presentSymbols_eq_iff (freq : Vector Word 256) {k : Nat} (hk : k < 512) :
    BitVec.ofNat 9 (presentSymbols freq).length = BitVec.ofNat 9 k ↔ (presentSymbols freq).length = k := by
  have := length_presentSymbols_le freq
  rw [BitVec.toNat_inj.symm, BitVec.toNat_ofNat, BitVec.toNat_ofNat, Nat.mod_eq_of_lt (by omega),
    Nat.mod_eq_of_lt hk]

/-- BUILD leaves no root only where it found no symbol (41_tree_builder.md R124). -/
theorem presentSymbols_eq_nil_of_no_root {freq : Vector Word 256} {node : Arena}
    (fits : frequencySum freq < 2 ^ 32) (h : (buildTree freq node).2 = none) :
    presentSymbols freq = [] := by
  by_contra hn
  obtain ⟨root, hr, -⟩ := buildTree_inv freq node fits hn
  rw [h] at hr
  cases hr

theorem BlockInv.withBuiltTree {s : State} (h : BlockInv s) (fits : frequencySum s.freq < 2 ^ 32) :
    BlockInv s.withBuiltTree where
  status :=
    { h.status with
      codes_tree := nofun, enc_codes := nofun, dec_tree := nofun, empty_tree := fun _ => rfl
      single_tree := fun _ => rfl
      not_both := by simp only [State.withBuiltTree, beq_iff_eq]; omega }
  fifo := { h.fifo with }
  register :=
    { h.register with
      no_tree := nofun
      leaves := by
        have := length_presentSymbols_le s.freq
        simp only [State.withBuiltTree, BitVec.toNat_ofNat]
        omega
      empty := by
        simpa [State.withBuiltTree] using
          (ofNat_length_presentSymbols_eq_iff s.freq (k := 0) (by decide)).symm
      single := by
        simpa [State.withBuiltTree] using
          (ofNat_length_presentSymbols_eq_iff s.freq (k := 1) (by decide)).symm
      no_root := fun hr => by
        have hp := presentSymbols_eq_nil_of_no_root fits hr
        simp [State.withBuiltTree, frequencySum, hp]
      rem := Nat.zero_le _ }

/-! ### Every step -/

theorem CommandMakes.blockInv {s t : State} (m : CommandMakes s t) (h : BlockInv s) : BlockInv t := by
  obtain ⟨hs, hf, hr⟩ := h
  cases m with
  | held => exact ⟨hs, hf, hr⟩
  | results f a b cc =>
    apply BlockInv.finish
    exact ⟨{ hs with }, { hf with }, { hr with }⟩
  | writeSide p o e a b cc pend outq enc =>
    apply BlockInv.finish
    exact
      ⟨{ hs with enc_codes := fun he => (enc he).elim hs.enc_codes id, wpend := pend hs.wpend },
        { hf with outq := outq hs.wpend hf.outq }, { hr with }⟩
  | readSide r i o n d a b cc bits outq rem dec =>
    obtain ⟨hresid, hinq⟩ := bits hs.rres
    apply BlockInv.finish
    refine
      ⟨{ hs with dec_tree := fun hd => (dec hd).elim hs.dec_tree id, rres := hresid },
        { hf with inq := hinq.trans hf.inq, outq := outq hf.outq },
        { hr with no_tree := fun hv => ?_, rem := ?_ }⟩
    · obtain ⟨htotal, hnleaf, hrem, hroot⟩ := hr.no_tree hv
      refine ⟨htotal, hnleaf, ?_, hroot⟩
      rcases rem with rem | rfl
      · rw [hrem] at rem
        exact BitVec.eq_of_toNat_eq (Nat.le_zero.1 rem)
      · exact htotal
    · rcases rem with rem | rfl
      · exact rem.trans hr.rem
      · exact le_refl _
  | sreset => exact (blockInv_resetAll hf s.currentWord s.rst).finish .ok
  | buildOverflow => exact (BlockInv.invalidateTree ⟨hs, hf, hr⟩).clearResults.finish .totalOvf
  | build fits => exact (BlockInv.withBuiltTree ⟨hs, hf, hr⟩ fits).finish .ok
  | genc a b valid =>
    apply BlockInv.finish
    exact ⟨{ hs with codes_tree := fun _ => valid, enc_codes := fun _ => rfl }, { hf with }, { hr with }⟩

theorem blockInv_writeReg {s : State} (h : BlockInv s) (released : s.rst = false) (r : HostReg)
    (v : Word) : BlockInv (writeReg r v s) := by
  have notInReset : ∀ {P : Prop}, s.rst = true → P := fun hr => by rw [released] at hr; cases hr
  obtain ⟨hs, hf, hr⟩ := h
  cases r with
  | ctrl =>
    refine ⟨{ hs with }, { hf with inq := ?_, outq := ?_ }, { hr with }⟩
    · simp only [writeReg, writeCtrl]
      split
      · exact Nat.zero_le _
      · exact hf.inq
    · simp only [writeReg, writeCtrl]
      split
      · exact Nat.zero_le _
      · exact hf.outq
  | status =>
    refine ⟨{ hs with err_first := ?_ }, { hf with }, { hr with }⟩
    simp only [writeReg, writeStatus]
    cases v.getLsbD 2
    · simpa using hs.err_first
    · simp
  | cmd =>
    simp only [writeReg]
    unfold writeCmd
    split
    · exact ⟨{ hs with }, { hf with }, { hr with }⟩
    · refine ⟨{ hs with }, { hf with }, { hr with cmd := ?_, rst := notInReset }⟩
      rintro c ⟨⟩
      rfl
  | arg => exact ⟨{ hs with }, { hf with }, { hr with }⟩
  | inData =>
    simp only [writeReg]
    unfold writeInData
    split
    · exact ⟨{ hs with }, { hf with }, { hr with }⟩
    · rename_i hfull
      refine ⟨{ hs with }, { hf with inq := ?_ }, { hr with }⟩
      rw [List.length_append]
      exact lt_of_le_of_ne hf.inq fun e => hfull (.inr e)
  | _ => exact ⟨hs, hf, hr⟩

theorem AccessMakes.blockInv {s t : State} (m : AccessMakes s t) (released : s.rst = false)
    (h : BlockInv s) : BlockInv t := by
  cases m with
  | ignored => exact h
  | read lanes => exact ⟨{ h.status with }, { h.fifo with }, { h.register with }⟩
  | pop b rest lanes e =>
    have hfull := h.fifo.outq
    rw [e, List.length_cons] at hfull
    exact ⟨{ h.status with }, { h.fifo with outq := Nat.le_of_succ_le hfull }, { h.register with }⟩
  | write r v => exact blockInv_writeReg h released r v

theorem TurnMakes.blockInv {s t : State} (m : TurnMakes s t) (h : BlockInv s) : BlockInv t := by
  cases m with
  | idle => exact h
  | access released m => exact m.blockInv released h
  | command m => exact m.blockInv h
  | reset asserted => exact blockInv_resetAll h.fifo 0 asserted

theorem step_keeps_blockInv {s t : State} (h : BlockInv s) (e : step s = .next t) : BlockInv t :=
  (step_makes e).blockInv ⟨{ h.status with }, { h.fifo with }, { h.register with }⟩

/-! ### The reset state -/

/-- The uninterpreted depths lie in 32..65535 (00_scope.md R6). -/
theorem fifoInv_reset : FifoInv State.reset := by
  have hi := Config.inDepthAbove32.isLt
  have ho := Config.outDepthAbove32.isLt
  constructor <;> simp only [State.reset, Config.inDepth, Config.outDepth, List.length_nil] <;> omega

theorem blockInv_reset : BlockInv State.reset where
  status := by constructor <;> simp [State.reset]
  fifo := fifoInv_reset
  register := by constructor <;> simp [State.reset]

end Sys2Proof.Machine

open Sys2Proof.Machine

/-- Settles O56: each thing a turn can make of a state keeps the invariants. -/
theorem everyStepKeepsTheStatusInvariants : Obligations.EveryStepKeepsTheStatusInvariants := by
  rintro s t ⟨hs, hf, hr⟩ e
  obtain ⟨hs', hf', hr'⟩ := step_keeps_blockInv ⟨hs, hf, hr⟩ e
  exact ⟨hs', hf', hr'⟩

/-- Settles O55: no tree and no code table is valid at reset, and every count is 0. -/
theorem resetMeetsTheInvariants : Obligations.ResetMeetsTheInvariants := by
  obtain ⟨hs, hf, hr⟩ := blockInv_reset
  exact ⟨hs, hf, hr, nofun, nofun, nofun⟩
end

section
/-! SUPPORT. The leaf order table: what GENC writes into it, and that every step keeps it. -/

namespace Sys2Proof.Machine

/-! ### The leaves GENC visits in a tree of the shape of R125 -/

/-- GENC visits each of the leaves 0..n−1 once, the empty tree's included (42_code_table.md R135). -/
theorem TreeShape.leavesInOrder_perm {node : Arena} {n : Nat} {root : Option NodeId}
    (h : TreeShape node n root) :
    ((leavesInOrder node root).map fun l => l.1.val).Perm (List.range n) := by
  cases root with
  | none =>
    obtain rfl : n = 0 := by
      by_contra hn
      simpa [hn] using h.root_eq
    exact List.Perm.refl _
  | some r => exact h.visited

theorem TreeShape.length_leavesInOrder {node : Arena} {n : Nat} {root : Option NodeId}
    (h : TreeShape node n root) : (leavesInOrder node root).length = n := by
  simpa using h.leavesInOrder_perm.length_eq

theorem TreeShape.val_lt_of_mem_leavesInOrder {node : Arena} {n : Nat} {root : Option NodeId}
    (h : TreeShape node n root) {leaf : NodeId × BitString} (hl : leaf ∈ leavesInOrder node root) :
    leaf.1.val < n :=
  List.mem_range.1 (h.leavesInOrder_perm.mem_iff.1 (List.mem_map_of_mem hl))

/-- Of two leaves in GENC's order the earlier lies further left (42_code_table.md R135). -/
theorem leavesInOrder_pairwise (node : Arena) (root : Option NodeId) :
    (leavesInOrder node root).Pairwise fun a b => isLeftOf a.2 b.2 := by
  cases root with
  | none => exact List.Pairwise.nil
  | some r => exact visit_pairwise node 255 r []

/-- GENC's code for a visited leaf's symbol is that leaf's path (42_code_table.md R135). -/
theorem TreeShape.code_of_mem_leavesInOrder {node : Arena} {n : Nat} {root : Option NodeId}
    (h : TreeShape node n root) {m : NodeId} {p : BitString} (hl : (m, p) ∈ leavesInOrder node root) :
    ∃ sym f, node[m] = .leaf sym f ∧
      symEntry (codesOfLeaves node (leavesInOrder node root)) sym = .present p := by
  cases root with
  | none => cases hl
  | some r =>
    obtain ⟨f, e, -⟩ := h.leaf_of_lt (h.val_lt_of_mem_leavesInOrder hl)
    exact ⟨_, f, e, h.code_of_visited hl e⟩

/-! ### The table GENC writes -/

/-- Entry i of the leaf order table that GENC writes names the i-th visited leaf (10_state.md R54). -/
theorem withCodes_leafOrd (s : State) (a b : Word) (i : Fin 256)
    (hi : i.val < (leavesInOrder s.node s.root).length) :
    (s.withCodes a b).leafOrd[i] = ((leavesInOrder s.node s.root)[i.val]).1 :=
  storeLeafOrder_get _ 0 _ i.val hi i (Nat.zero_add _).symm

theorem withCodes_leafOrd_lt {s : State} (h : TreeShape s.node s.nleaf.toNat s.root) (a b : Word)
    {i : Fin 256} (hi : i.val < s.nleaf.toNat) :
    (s.withCodes a b).leafOrd[i].val < s.nleaf.toNat := by
  have hlen : i.val < (leavesInOrder s.node s.root).length := by rwa [h.length_leavesInOrder]
  rw [withCodes_leafOrd s a b i hlen]
  exact h.val_lt_of_mem_leavesInOrder (List.getElem_mem hlen)

theorem withCodes_leafOrd_mem (s : State) (a b : Word) (i : Fin 256)
    (hi : i.val < (leavesInOrder s.node s.root).length) :
    ((s.withCodes a b).leafOrd[i], ((leavesInOrder s.node s.root)[i.val]).2)
      ∈ leavesInOrder s.node s.root := by
  rw [withCodes_leafOrd s a b i hi]
  exact List.getElem_mem hi

theorem leafOrderInv_withCodes {s : State} (h : TreeShape s.node s.nleaf.toNat s.root) (a b : Word) :
    LeafOrderInv (s.withCodes a b) := fun _ _ hi =>
  have hlt := withCodes_leafOrd_lt h a b hi
  ⟨hlt, h.leaves _ hlt⟩

/-! ### Every step -/

theorem AccessMakes.leafOrderInv {s t : State} (m : AccessMakes s t) (h : LeafOrderInv s) :
    LeafOrderInv t := by
  rw [m.frame]
  exact h

/-- GENC writes the table anew from the tree; the commands that change the tree end its validity. -/
theorem CommandMakes.leafOrderInv {s t : State} (m : CommandMakes s t) (ht : TreeInv s)
    (h : LeafOrderInv s) : LeafOrderInv t := by
  cases m with
  | sreset => exact nofun
  | buildOverflow => exact nofun
  | build fits => exact nofun
  | genc a b valid => exact leafOrderInv_withCodes (ht valid).1 a b
  | _ => exact h

theorem TurnMakes.leafOrderInv {s t : State} (m : TurnMakes s t) (ht : TreeInv s)
    (h : LeafOrderInv s) : LeafOrderInv t := by
  cases m with
  | idle => exact h
  | access released m => exact m.leafOrderInv h
  | command m => exact m.leafOrderInv ht h
  | reset asserted => exact nofun

end Sys2Proof.Machine

open Sys2Proof.Machine

/-- Settles O58: of all that a turn can do only GENC writes the table of a valid tree, and it names the
leaves it visits. -/
theorem everyStepKeepsTheLeafOrder : Obligations.EveryStepKeepsTheLeafOrder :=
  fun _ _ ht h e => (step_makes e).leafOrderInv ht h

/-- Settles O22: the traversal's list is ordered left first, and the codes are the paths in it. -/
theorem gencListsTheLeavesLeftFirst : Obligations.GencListsTheLeavesLeftFirst := by
  intro s t hv h e
  obtain ⟨a, b, hab⟩ := exec_genc_of_valid hv
  obtain rfl := Host.Outcome.next.inj (hab.symm.trans e)
  refine ⟨fun i hi => withCodes_leafOrd_lt h a b hi, fun i j hij hj => ?_⟩
  rw [← h.length_leavesInOrder] at hj
  have hi : i.val < (leavesInOrder s.node s.root).length := lt_trans hij hj
  obtain ⟨x, f, hx, hp⟩ := h.code_of_mem_leavesInOrder (withCodes_leafOrd_mem s a b i hi)
  obtain ⟨y, g, hy, hq⟩ := h.code_of_mem_leavesInOrder (withCodes_leafOrd_mem s a b j hj)
  exact ⟨x, y, f, g, _, _, hx, hy, hp, hq,
    List.pairwise_iff_getElem.1 (leavesInOrder_pairwise s.node s.root) _ _ hi hj hij⟩
end

section
/-! SUPPORT. The registers as the host reads them: the fields of the CTRL and STATUS words, the offsets of
the register map, the values after reset, and the host's turn. -/

namespace Sys2Proof.Machine

/-! ### The words built from fields -/

/-- The CTRL word holds the fields of CTRL (10_state.md R34). -/
theorem ctrlFields_ctrlWord (s : State) : CtrlFields s.ctrlWord s := by
  constructor
  case zeros =>
    apply BitVec.eq_of_getLsbD_eq
    intro i hi
    rw [BitVec.getLsbD_extractLsb', State.ctrlWord]
    repeat rw [BitVec.getLsbD_append]
    simp
  all_goals
    rw [State.ctrlWord]
    repeat rw [BitVec.getLsbD_append]
    simp [flag]

/-- The fields of the STATUS word from bit 12 up are four bits wide (10_state.md R35). -/
theorem extractLsb'_statusWord (s : State) :
    s.statusWord.extractLsb' 12 4 = s.cc.bits
      ∧ s.statusWord.extractLsb' 16 4 = BitVec.ofNat 4 s.pend.length
      ∧ s.statusWord.extractLsb' 20 4 = BitVec.ofNat 4 s.resid.length
      ∧ s.statusWord.extractLsb' 24 4 = s.firstErr.bits
      ∧ s.statusWord.extractLsb' 28 4 = 0 := by
  refine ⟨?_, ?_, ?_, ?_, ?_⟩
  all_goals
    apply BitVec.eq_of_getLsbD_eq
    intro i hi
    rw [BitVec.getLsbD_extractLsb', State.statusWord]
    repeat rw [BitVec.getLsbD_append]
    interval_cases i <;> simp

/-- The STATUS word holds the fields of STATUS (10_state.md R35). -/
theorem statusFields_statusWord {s : State} (hp : s.pend.length ≤ 7) (hr : s.resid.length ≤ 8) :
    StatusFields s.statusWord s := by
  obtain ⟨hcc, hpend, hresid, hfirst, hzero⟩ := extractLsb'_statusWord s
  constructor
  case cc => exact hcc
  case wpend => rw [hpend, BitVec.toNat_ofNat, Nat.mod_eq_of_lt (by omega)]
  case rres => rw [hresid, BitVec.toNat_ofNat, Nat.mod_eq_of_lt (by omega)]
  case firstErr => exact hfirst
  case reserved28 => exact hzero
  all_goals
    rw [State.statusWord]
    repeat rw [BitVec.getLsbD_append]
    simp [State.busy, flag]

/-- LEVELS and PARAM hold two 16-bit counts (10_state.md R43, R47). -/
theorem toNat_append_counts {a b : Nat} (ha : a < 2 ^ 16) (hb : b < 2 ^ 16) :
    (BitVec.ofNat 16 a ++ BitVec.ofNat 16 b).toNat = b + 2 ^ 16 * a := by
  rw [toNat_append_eq, BitVec.toNat_ofNat, BitVec.toNat_ofNat, Nat.mod_eq_of_lt ha,
    Nat.mod_eq_of_lt hb]
  omega

/-! ### The register map -/

/-- Only offset 0x00 is ID, only 0x20 is OUT_DATA and only 0x34 is PARAM (10_state.md R62). -/
theorem toNat_of_regAt {off : Byte} {r : HostReg} (h : regAt off = some r) :
    (r = .id → off.toNat = 0x00) ∧ (r = .outData → off.toNat = 0x20)
      ∧ (r = .param → off.toNat = 0x34) := by
  unfold regAt at h
  split at h <;> cases h <;> simp_all

theorem hostRead_of_regAt {off : Byte} {r : HostReg} (h : regAt off = some r) (s : State) :
    hostRead off s = readReg r s := by
  simp only [hostRead, h]

theorem hostRead_of_reserved {off : Byte} (h : regAt off = none) (s : State) :
    hostRead off s = (0, s) := by
  simp only [hostRead, h]

/-- Only a read of OUT_DATA has an effect (20_memory.md R80, R93). -/
theorem hostRead_snd {off : Byte} (h : off.toNat ≠ 0x20) (s : State) : (hostRead off s).2 = s := by
  cases hr : regAt off with
  | none => rw [hostRead_of_reserved hr]
  | some r =>
    rw [hostRead_of_regAt hr]
    cases r with
    | outData => exact absurd ((toNat_of_regAt hr).2.1 rfl) h
    | _ => rfl

/-- After reset every register but ID and PARAM reads 0 (10_state.md R61). -/
theorem hostRead_reset {off : Byte} (hid : off.toNat ≠ 0x00) (hparam : off.toNat ≠ 0x34) :
    (hostRead off State.reset).1 = 0 := by
  cases hr : regAt off with
  | none => rw [hostRead_of_reserved hr]
  | some r =>
    rw [hostRead_of_regAt hr]
    cases r with
    | id => exact absurd ((toNat_of_regAt hr).1 rfl) hid
    | param => exact absurd ((toNat_of_regAt hr).2.2 rfl) hparam
    | _ => rfl

/-! ### The host's turn -/

theorem step_host {s : State} {a : HostAccess} {rest : List Turn} (h : s.schedule = .host a :: rest) :
    step s = hostTurn a { s with schedule := rest } := by
  simp only [step, h, takeTurn]

theorem step_idle {s : State} (hr : s.rst = false) (hp : s.pending = none) (hs : s.schedule = []) :
    step s = .next s := by
  simp [step, hs, sequencerTurn, hr, hp]

end Sys2Proof.Machine

open Sys2Proof.Machine

/-- Settles O42: each offset is looked up in the register map, and the words are taken apart. -/
theorem registerReadsShowTheState : Obligations.RegisterReadsShowTheState := by
  intro s hs hf
  refine ⟨fun off h => hostRead_snd h s, rfl, ctrlFields_ctrlWord s,
    statusFields_statusWord hs.wpend hs.rres, rfl, rfl, rfl, rfl, rfl, ?_, ?_, ?_, rfl, rfl, ?_, ?_, ?_,
    fun _ => rfl⟩
  · intro b rest h
    change (readOutData s).1.toNat = _
    simp only [readOutData, h]
    exact toNat_flaggedByte b
  · intro h
    change (readOutData s).1 = 0
    simp only [readOutData, h]
  · have := hf.inq
    have := hf.outq
    have := hf.inDepth
    have := hf.outDepth
    exact toNat_append_counts (by omega) (by omega)
  · change (0#23 ++ s.nleaf).toNat = _
    rw [toNat_append_eq]
    simp
  · have := hf.inDepth
    have := hf.outDepth
    exact toNat_append_counts (by omega) (by omega)
  · simp only [List.forall_mem_cons]
    exact ⟨fun _ => rfl, fun _ => rfl, fun _ => rfl, fun _ => rfl, fun _ => rfl, fun _ => rfl,
      fun _ => rfl, fun _ => rfl, fun _ => rfl, nofun⟩

/-- Settles O48: the reset table field by field, then each register of the map. -/
theorem resetLeavesTheResetValues : Obligations.ResetLeavesTheResetValues :=
  ⟨resetValues_reset, rfl, rfl, rfl, rfl, fun _ hid hparam => hostRead_reset hid hparam⟩

/-- Settles O54: the level of the reset input decides whether the access is made. -/
theorem hostTurnIsOneAccess : Obligations.HostTurnIsOneAccess := by
  refine fun s => ⟨fun a rest hs => ⟨fun hr => ?_, fun hr => ?_⟩, step_idle⟩
  · rw [step_host hs]
    exact if_neg (by simp [hr])
  · rw [step_host hs]
    exact if_pos hr
end

section
/-! SUPPORT. The host's accesses one by one: which are defined and what their byte lanes carry, and what a
write of CTRL, STATUS, CMD or IN_DATA and a read of OUT_DATA do. -/

namespace Sys2Proof.Machine

/-! ### Offsets and byte lanes -/

/-- The offsets from 0x38 up are reserved (10_state.md R48). -/
theorem regAt_of_reserved {off : Byte} (h : 0x38 ≤ off.toNat) : regAt off = none := by
  unfold regAt
  split
  case h_15 => rfl
  all_goals omega

theorem hostWrite_of_reserved {off : Byte} (h : regAt off = none) (v : Word) (s : State) :
    hostWrite off v s = s := by
  simp only [hostWrite, h]

theorem definedAccess_iff {off : Byte} {lanes : Nat} :
    definedAccess off lanes = true ↔ off.toNat % 4 = 0 ∧ lanes = 4 := decide_eq_true_iff

theorem performAccess_read_of_defined {off : Byte} {lanes : Nat} (h : off.toNat % 4 = 0 ∧ lanes = 4)
    (s : State) :
    performAccess (.read off lanes) s
      = { (hostRead off s).2 with readLanes := lanesOfWord (hostRead off s).1 } :=
  if_pos (definedAccess_iff.2 h)

theorem performAccess_read_of_undefined {off : Byte} {lanes : Nat}
    (h : ¬ (off.toNat % 4 = 0 ∧ lanes = 4)) (s : State) :
    performAccess (.read off lanes) s = { s with readLanes := List.replicate lanes 0 } :=
  if_neg (mt definedAccess_iff.1 h)

theorem performAccess_write_of_defined {off : Byte} {lanes : List Byte}
    (h : off.toNat % 4 = 0 ∧ lanes.length = 4) (s : State) :
    performAccess (.write off lanes) s = hostWrite off (wordOfLanes lanes) s :=
  if_pos (definedAccess_iff.2 h)

theorem performAccess_write_of_undefined {off : Byte} {lanes : List Byte}
    (h : ¬ (off.toNat % 4 = 0 ∧ lanes.length = 4)) (s : State) :
    performAccess (.write off lanes) s = s :=
  if_neg (mt definedAccess_iff.1 h)

/-- A lane put below three others has the least weight (20_memory.md R73). -/
theorem toNat_wordOfLanes_cons (b : Byte) {lanes : List Byte} (h : (wordOfLanes lanes).toNat < 2 ^ 24) :
    (wordOfLanes (b :: lanes)).toNat = 2 ^ 8 * (wordOfLanes lanes).toNat + b.toNat := by
  change (wordOfLanes lanes <<< 8 ||| b.setWidth 32).toNat = _
  rw [BitVec.toNat_or, BitVec.toNat_shiftLeft, Nat.shiftLeft_eq, Nat.mod_eq_of_lt (by omega),
    BitVec.toNat_setWidth_of_le (by decide), Nat.mul_comm, Nat.two_pow_add_eq_or_of_lt b.isLt]

/-- Four written lanes make a word, lane 0 the least significant (20_memory.md R73). -/
theorem wordOfLanes_four (a b c d : Byte) : wordOfLanes [a, b, c, d] = d ++ c ++ b ++ a := by
  have hb := b.isLt
  have hc := c.isLt
  have hd := d.isLt
  have hnil : (wordOfLanes []).toNat = 0 := rfl
  have one := toNat_wordOfLanes_cons d (lanes := []) (by omega)
  have two := toNat_wordOfLanes_cons c (lanes := [d]) (by omega)
  have three := toNat_wordOfLanes_cons b (lanes := [c, d]) (by omega)
  have four := toNat_wordOfLanes_cons a (lanes := [b, c, d]) (by omega)
  apply BitVec.eq_of_toNat_eq
  simp only [toNat_append_eq]
  omega

/-! ### Writes of registers -/

/-- CTRL reads back the four fields written, and its other bits as 0 (20_memory.md R75). -/
theorem ctrlWord_writeCtrl (v : Word) (s : State) : (writeCtrl v s).ctrlWord = v &&& 0xF := by
  obtain ⟨h0, h1, h2, h3, hzeros⟩ := ctrlFields_ctrlWord (writeCtrl v s)
  have hmask : ∀ i < 32, 4 ≤ i → (0xF : Word).getLsbD i = false := by decide
  apply BitVec.eq_of_getLsbD_eq
  intro i hi
  rw [BitVec.getLsbD_and]
  obtain hlow | hhigh := Nat.lt_or_ge i 4
  · interval_cases i
    · exact h0.trans (Bool.and_true _).symm
    · exact h1.trans (Bool.and_true _).symm
    · exact h2.trans (Bool.and_true _).symm
    · exact h3.trans (Bool.and_true _).symm
  · rw [hmask i hi hhigh, Bool.and_false]
    have hbit := congrArg (fun w => w.getLsbD (i - 4)) hzeros
    simpa [BitVec.getLsbD_extractLsb', show i - 4 < 28 by omega, Nat.add_sub_cancel' hhigh] using hbit

/-- A flag cleared by writing 1 keeps its value under a written 0 (20_memory.md R76). -/
theorem and_not_eq_ite (x b : Bool) : (x && !b) = if b then false else x := by cases b <;> simp

theorem writeCmd_of_idle {s : State} (h : s.pending = none) (v : Word) :
    writeCmd v s = { s with pending := some { word := v, arg := s.arg }, cmd := v } := by
  simp only [writeCmd, h]

theorem writeCmd_of_busy {s : State} {c : Command} (h : s.pending = some c) (v : Word) :
    writeCmd v s = { s with cmdOvr := true } := by
  simp only [writeCmd, h]

/-! ### The FIFO ports -/

theorem writeInData_of_closed {s : State} (h : s.inEos = true ∨ s.inq.length = s.inDepth) (v : Word) :
    writeInData v s = { s with inOvr := true } :=
  if_pos h

theorem writeInData_of_open {s : State} (heos : s.inEos = false) (hroom : s.inq.length ≠ s.inDepth)
    (v : Word) : writeInData v s = { s with inq := s.inq ++ [v.extractLsb' 0 8] } :=
  if_neg (by simp [heos, hroom])

/-- VALID stands just above the byte (10_state.md R42). -/
theorem flaggedByte_eq_or (b : Byte) : flaggedByte b = 0x100 ||| b.setWidth 32 := by
  apply BitVec.eq_of_toNat_eq
  rw [toNat_flaggedByte, BitVec.toNat_or, BitVec.toNat_setWidth_of_le (by decide)]
  exact Nat.two_pow_add_eq_or_of_lt b.isLt 1

theorem readOutData_of_cons {s : State} {b : Byte} {rest : List Byte} (h : s.outq = b :: rest) :
    readOutData s = (flaggedByte b, { s with outq := rest }) := by
  simp only [readOutData, h]

theorem readOutData_of_nil {s : State} (h : s.outq = []) : readOutData s = (0, s) := by
  simp only [readOutData, h]

end Sys2Proof.Machine

open Sys2Proof.Machine

/-- Settles O41: an access is defined or it is not, and a defined one carries the word's lanes. -/
theorem hostAccessesAreAlignedLittleEndianWords :
    Obligations.HostAccessesAreAlignedLittleEndianWords := by
  refine fun off s => ⟨fun n h => performAccess_read_of_undefined h s,
    fun lanes h => performAccess_write_of_undefined h s, fun h v => ?_, fun h => ⟨?_, fun a b c d => ?_⟩⟩
  · have hnone := regAt_of_reserved h
    exact ⟨hostRead_of_reserved hnone s, hostWrite_of_reserved hnone v s⟩
  · exact performAccess_read_of_defined ⟨h, rfl⟩ s
  · rw [performAccess_write_of_defined ⟨h, rfl⟩, wordOfLanes_four]

/-- Settles O43: offset 0x04 is CTRL, and the word read back is masked to the four stored fields. -/
theorem ctrlWriteSetsItsFields : Obligations.CtrlWriteSetsItsFields :=
  fun v s => ⟨writeCtrl v s, rfl, rfl, rfl, rfl, rfl, rfl, rfl, rfl, ctrlWord_writeCtrl v s⟩

/-- Settles O44: offset 0x08 is STATUS, and each flag is kept or cleared by its own bit. -/
theorem statusWriteClearsTheWrittenFlags : Obligations.StatusWriteClearsTheWrittenFlags :=
  fun v s => ⟨writeStatus v s, rfl, and_not_eq_ite _ _, and_not_eq_ite _ _, rfl, and_not_eq_ite _ _,
    and_not_eq_ite _ _, rfl⟩

/-- Settles O45: offset 0x0C is CMD, and `pending` decides between issue and drop. -/
theorem cmdWriteIssuesOrIsDropped : Obligations.CmdWriteIssuesOrIsDropped :=
  fun v _ => ⟨fun h => writeCmd_of_idle h v, fun _ h => writeCmd_of_busy h v⟩

/-- Settles O46: offset 0x1C is IN_DATA and 0x20 is OUT_DATA; each port has its two cases. -/
theorem fifoPortsPushAndPop : Obligations.FifoPortsPushAndPop := by
  refine fun v s => ⟨fun h => writeInData_of_closed h v, fun heos hroom => writeInData_of_open heos hroom v,
    fun b rest h => ?_, fun h => readOutData_of_nil h, rfl, rfl⟩
  rw [← flaggedByte_eq_or]
  exact readOutData_of_cons h
end

section
/-! SUPPORT. The command words of the encoding table: what a word with a defined OP decodes to, and that
the command's encoding holds exactly the fields the command uses (30_encoding.md R95 to R105). -/

namespace Sys2Proof

open Machine

/-! ### What a word with a defined OP decodes to -/

/-- The command of the same OP whose operands, where it has them, are the given SYM, IDX and ARG values
(30_encoding.md R98, R101 to R104). -/
def Instr.withOperands (sym : Byte) (idx : Nat) (arg : Word) : Instr → Instr
  | .nop => .nop
  | .sreset => .sreset
  | .fclr => .fclr
  | .fwr _ _ => .fwr sym arg
  | .frd _ => .frd sym
  | .finc _ => .finc sym
  | .build => .build
  | .genc => .genc
  | .crd _ _ => .crd sym idx
  | .lrd _ => .lrd idx
  | .nrd _ => .nrd idx
  | .estart => .estart
  | .esym _ => .esym sym
  | .eflush => .eflush
  | .bpush _ _ => .bpush idx arg
  | .dstart => .dstart
  | .dsym => .dsym
  | .bget => .bget

/-- OP alone selects the command; the fields fill in its operands (30_encoding.md R98). -/
theorem decode_of_opField {word : Word} {i : Instr} (h : opField word = i.opcode) (arg : Word) :
    decode word arg = .ok (i.withOperands (symField word) (idxField word) arg) := by
  unfold decode
  rw [h]
  cases i <;> rfl

/-- Each OP of the table is some command's (30_encoding.md R98). -/
theorem exists_opcode_of_mem_definedOps : ∀ n ∈ definedOps, ∃ i : Instr, i.opcode.toNat = n := by
  simp only [definedOps, List.forall_mem_cons]
  exact ⟨⟨.nop, rfl⟩, ⟨.sreset, rfl⟩, ⟨.fclr, rfl⟩, ⟨.fwr 0 0, rfl⟩, ⟨.frd 0, rfl⟩, ⟨.finc 0, rfl⟩,
    ⟨.build, rfl⟩, ⟨.genc, rfl⟩, ⟨.crd 0 0, rfl⟩, ⟨.lrd 0, rfl⟩, ⟨.nrd 0, rfl⟩, ⟨.estart, rfl⟩,
    ⟨.esym 0, rfl⟩, ⟨.eflush, rfl⟩, ⟨.bpush 0 0, rfl⟩, ⟨.dstart, rfl⟩, ⟨.dsym, rfl⟩, ⟨.bget, rfl⟩, nofun⟩

theorem exists_opcode_eq_opField {word : Word} (h : (opField word).toNat ∈ definedOps) :
    ∃ i : Instr, opField word = i.opcode := by
  obtain ⟨i, hi⟩ := exists_opcode_of_mem_definedOps _ h
  exact ⟨i, BitVec.eq_of_toNat_eq hi.symm⟩

/-! ### The fields of a command's encoding -/

theorem opField_encodeWord (i : Instr) : opField (encodeWord i) = i.opcode := by
  cases i <;> exact opField_commandWord ..

/-- The encoding holds every operand of a well-formed command (30_encoding.md R95, R96). -/
theorem withOperands_encode {i : Instr} (h : i.wellFormed = true) :
    i.withOperands (symField (encodeWord i)) (idxField (encodeWord i)) (encodeArg i) = i := by
  cases i with
  | fwr sym arg => exact congrArg (Instr.fwr · arg) (symField_commandWord ..)
  | frd sym => exact congrArg Instr.frd (symField_commandWord ..)
  | finc sym => exact congrArg Instr.finc (symField_commandWord ..)
  | esym sym => exact congrArg Instr.esym (symField_commandWord ..)
  | crd sym idx =>
    exact congrArg₂ Instr.crd (symField_commandWord ..) (idxField_commandWord _ _ (of_decide_eq_true h))
  | lrd idx => exact congrArg Instr.lrd (idxField_commandWord _ _ (of_decide_eq_true h))
  | nrd idx => exact congrArg Instr.nrd (idxField_commandWord _ _ (of_decide_eq_true h))
  | bpush idx arg => exact congrArg (Instr.bpush · arg) (idxField_commandWord _ _ (of_decide_eq_true h))
  | _ => rfl

theorem decode_encode {i : Instr} (h : i.wellFormed = true) :
    decode (encode i).1 (encode i).2 = .ok i := by
  change decode (encodeWord i) (encodeArg i) = _
  rw [decode_of_opField (opField_encodeWord i), withOperands_encode h]

/-! ### The encoding of the command a word decodes to -/

theorem idxField_lt (word : Word) : idxField word < 65536 := BitVec.isLt _

theorem wellFormed_withOperands (i : Instr) (sym : Byte) {idx : Nat} (h : idx < 65536) (arg : Word) :
    (i.withOperands sym idx arg).wellFormed = true := by
  cases i with
  | crd _ _ | lrd _ | nrd _ | bpush _ _ => exact decide_eq_true h
  | _ => rfl

theorem clearUnused_of_opField {word : Word} {op : Byte} (h : opField word = op) :
    clearUnused word =
      commandWord op (if op.toNat ∈ opsUsingSym then symField word else 0)
        (if op.toNat ∈ opsUsingIdx then idxField word else 0) := by
  subst h
  unfold clearUnused commandWord
  rw [apply_ite (BitVec.ofNat 16), ofNat_idxField]
  rfl

/-- The assembler's word keeps the fields the command uses and has 0 in the others
(30_encoding.md R97, R105). -/
theorem encodeWord_withOperands {word : Word} {i : Instr} (h : opField word = i.opcode) (arg : Word) :
    encodeWord (i.withOperands (symField word) (idxField word) arg) = clearUnused word := by
  rw [clearUnused_of_opField h]
  cases i <;> rfl

theorem encodeArg_withOperands {word : Word} {i : Instr} (h : opField word = i.opcode) (arg : Word) :
    encodeArg (i.withOperands (symField word) (idxField word) arg) = clearUnusedArg word arg := by
  unfold clearUnusedArg
  rw [h]
  cases i <;> rfl

theorem encode_withOperands {word : Word} {i : Instr} (h : opField word = i.opcode) (arg : Word) :
    encode (i.withOperands (symField word) (idxField word) arg)
      = (clearUnused word, clearUnusedArg word arg) :=
  Prod.ext (encodeWord_withOperands h arg) (encodeArg_withOperands h arg)

end Sys2Proof

open Sys2Proof

/-- Settles O50: the OP of the encoding is the command's, and its fields are the command's operands. -/
theorem decodeOfEncodeIsTheCommand : Obligations.DecodeOfEncodeIsTheCommand :=
  fun _ h => decode_encode h

/-- Settles O51: the cleared pair is the encoding of the command that the word decodes to, so it decodes
to the same command by `decode_encode`. -/
theorem unusedFieldsAreIgnored : Obligations.UnusedFieldsAreIgnored := by
  intro word arg hop
  obtain ⟨j, hj⟩ := exists_opcode_eq_opField hop
  have henc := encode_withOperands hj arg
  have hdec := decode_encode (wellFormed_withOperands j (symField word) (idxField_lt word) arg)
  rw [henc] at hdec
  exact ⟨_, decode_of_opField hj arg, hdec, henc⟩

/-- Settles O52: ten closed words, each decoded by evaluation. -/
theorem tableWordsDecode : Obligations.TableWordsDecode := by
  unfold Obligations.TableWordsDecode
  decide
end

section
/-! SUPPORT, then the obligations O8, O4, O5, O6 and O7. The frequency table commands, one rule for each
outcome, and the scan that composes them (40_frequency.md R110 to R115). -/

namespace Sys2Proof.Machine

/-! ### Runs of table commands -/

/-- Nothing but the completion fields and the frequency table differs: the frame of 40_frequency.md
R114. -/
def OnlyTableChanged (s t : State) : Prop := t = { s.withCompletionOf t with freq := t.freq }

theorem OnlyTableChanged.refl (s : State) : OnlyTableChanged s s := rfl

theorem OnlyTableChanged.trans {s t u : State} (hst : OnlyTableChanged s t) (htu : OnlyTableChanged t u) :
    OnlyTableChanged s u :=
  have hu := congrArg (fun x : State => ({ x.withCompletionOf u with freq := u.freq } : State)) hst
  Eq.trans htu hu

theorem execAll_cons_of_next {i : Instr} {s t : State} (h : exec i s = .next t) (rest : List Instr) :
    execAll (i :: rest) s = execAll rest t := by
  simp [execAll, h]

/-! ### FCLR and FINC -/

theorem exec_fclr (s : State) :
    ∃ t, exec .fclr s = .next t ∧ Completes .ok s t
      ∧ (∀ sym, symEntry t.freq sym = 0) ∧ t.result0 = 0 ∧ t.result1 = 0 ∧ OnlyTableChanged s t :=
  ⟨_, rfl, completes_finish .ok rfl rfl, symEntry_replicate 0, rfl, rfl, rfl⟩

/-- A count below 2^32−1 is not the word that FINC refuses, and adding one to it does not wrap (R113). -/
theorem toNat_add_one_of_lt {c : Word} (h : c.toNat < 2 ^ 32 - 1) :
    c ≠ 0xFFFFFFFF ∧ (c + 1).toNat = c.toNat + 1 := by
  constructor
  · rintro rfl
    exact absurd h (by decide)
  · have hone : (1 : Word).toNat = 1 := rfl
    exact BitVec.toNat_add_of_lt (by omega)

theorem exec_finc_of_lt {sym : Byte} {s : State} (h : (symEntry s.freq sym).toNat < 2 ^ 32 - 1) :
    ∃ t, exec (.finc sym) s = .next t ∧ Completes .ok s t
      ∧ (symEntry t.freq sym).toNat = (symEntry s.freq sym).toNat + 1
      ∧ (∀ other, other ≠ sym → symEntry t.freq other = symEntry s.freq other)
      ∧ t.result0 = symEntry t.freq sym ∧ t.result1 = 0 ∧ OnlyTableChanged s t := by
  obtain ⟨hne, hadd⟩ := toNat_add_one_of_lt h
  refine ⟨_, if_neg hne, completes_finish .ok rfl rfl, ?_, fun other ho => ?_, ?_, rfl, rfl⟩
  · simpa using hadd
  · exact symEntry_setSymEntry_ne s.freq _ ho
  · simp

theorem exec_finc_of_max {sym : Byte} {s : State} (h : (symEntry s.freq sym).toNat = 2 ^ 32 - 1) :
    ∃ t, exec (.finc sym) s = .next t ∧ Completes .freqOvf s t
      ∧ t.result0 = 0xFFFFFFFF ∧ t.result1 = 0 ∧ t = s.withCompletionOf t :=
  have hmax : symEntry s.freq sym = 0xFFFFFFFF := BitVec.eq_of_toNat_eq h
  ⟨_, if_pos hmax, completes_finish .freqOvf rfl rfl, rfl, rfl, rfl⟩

/-! ### The scan -/

/-- Counting the bytes of `m` adds to each entry its number of occurrences, as long as no entry would
pass 2^32−1 on the way; the entries may start at any values. -/
theorem execAll_finc (m : List Byte) (s : State)
    (h : ∀ sym, (symEntry s.freq sym).toNat + m.count sym < 2 ^ 32) :
    ∃ t, execAll (m.map .finc) s = .next t
      ∧ (∀ sym, (symEntry t.freq sym).toNat = (symEntry s.freq sym).toNat + m.count sym)
      ∧ OnlyTableChanged s t := by
  induction m generalizing s with
  | nil => exact ⟨s, rfl, fun _ => rfl, .refl s⟩
  | cons b rest ih =>
    have hb : (symEntry s.freq b).toNat < 2 ^ 32 - 1 := by
      have := h b
      rw [List.count_cons_self] at this
      omega
    obtain ⟨u, hu, -, hself, hother, -, -, hframe⟩ := exec_finc_of_lt hb
    have hcount : ∀ sym, (symEntry u.freq sym).toNat + rest.count sym
        = (symEntry s.freq sym).toNat + (b :: rest).count sym := by
      intro sym
      by_cases hs : sym = b
      · subst hs
        rw [hself, List.count_cons_self]
        omega
      · rw [hother sym hs, List.count_cons_of_ne (Ne.symm hs)]
    obtain ⟨t, ht, htcount, htframe⟩ := ih u fun sym => hcount sym ▸ h sym
    exact ⟨t, (execAll_cons_of_next hu _).trans ht, fun sym => (htcount sym).trans (hcount sym),
      hframe.trans htframe⟩

end Sys2Proof.Machine

open Sys2Proof Sys2Proof.Machine

/-- Settles O8: FCLR leaves every entry 0, and from there the scan's counts are the occurrences. -/
theorem frequencyScanCountsOccurrences : Obligations.FrequencyScanCountsOccurrences := by
  intro m s h
  obtain ⟨u, hu, -, hzero, -, -, hframe⟩ := exec_fclr s
  have hstart : ∀ sym, (symEntry u.freq sym).toNat + m.count sym = m.count sym := by simp [hzero]
  obtain ⟨t, ht, hcount, htframe⟩ := execAll_finc m u fun sym => (hstart sym).symm ▸ h sym
  exact ⟨t, (execAll_cons_of_next hu _).trans ht, fun sym => (hcount sym).trans (hstart sym),
    hframe.trans htframe⟩

/-- Settles O4. -/
theorem fclrClearsEveryEntry : Obligations.FclrClearsEveryEntry := exec_fclr

/-- Settles O5, by the rules of a table read after a write to the same and to another entry. -/
theorem fwrWritesOneEntry : Obligations.FwrWritesOneEntry := fun sym arg s =>
  ⟨_, rfl, completes_finish .ok rfl rfl, symEntry_setSymEntry_self s.freq sym arg,
    fun _ h => symEntry_setSymEntry_ne s.freq arg h, rfl, rfl, rfl⟩

/-- Settles O6: the ended state is the given one but for its results and its completion. -/
theorem frdReadsOneEntry : Obligations.FrdReadsOneEntry := fun _ _ =>
  ⟨_, rfl, completes_finish .ok rfl rfl, rfl, rfl, rfl⟩

/-- Settles O7, one clause for each side of 2^32−1. -/
theorem fincCountsOrReportsOverflow : Obligations.FincCountsOrReportsOverflow := fun _ _ =>
  ⟨exec_finc_of_lt, exec_finc_of_max⟩

end

section
/-! SUPPORT, then the obligations O57, O9, O10, O11, O12, O13 and O14. BUILD: the tree it publishes has the
shape of R125 and depends on the frequency table alone; NRD reads it (41_tree_builder.md R120 to R128). -/

namespace Sys2Proof.Machine

/-! ### The two outcomes of BUILD -/

/-- BUILD with a sum that fits 32 bits publishes the tree (41_tree_builder.md R120). -/
theorem exec_build_of_fits {s : State} (h : freqTotal s.freq ≤ 2 ^ 32 - 1) :
    exec .build s = .next (s.withBuiltTree.finish .ok) := by
  rw [← frequencySum_eq_freqTotal] at h
  exact if_neg (not_lt.2 h)

/-- BUILD with a larger sum leaves no tree (41_tree_builder.md R128). -/
theorem exec_build_of_overflow {s : State} (h : 2 ^ 32 - 1 < freqTotal s.freq) :
    exec .build s = .next (s.invalidateTree.clearResults.finish .totalOvf) := by
  rw [← frequencySum_eq_freqTotal] at h
  exact if_pos h

/-- The state that a BUILD whose sum fits answers. -/
theorem eq_of_exec_build {s t : State} (h : freqTotal s.freq ≤ 2 ^ 32 - 1) (e : exec .build s = .next t) :
    t = s.withBuiltTree.finish .ok :=
  (Host.Outcome.next.inj ((exec_build_of_fits h).symm.trans e)).symm

/-- The sum that BUILD compares with 2^32−1 is the whole table's (41_tree_builder.md R120, R128). -/
theorem frequencySum_lt {freq : Vector Word 256} (h : freqTotal freq ≤ 2 ^ 32 - 1) :
    frequencySum freq < 2 ^ 32 := by
  rw [frequencySum_eq_freqTotal]
  omega

/-- NLEAF holds the number of leaves: its 9 bits are enough (10_state.md R46). -/
@[simp] theorem withBuiltTree_nleaf_toNat (s : State) :
    s.withBuiltTree.nleaf.toNat = (presentSymbols s.freq).length := by
  have := length_presentSymbols_le s.freq
  exact Nat.mod_eq_of_lt (by omega)

/-! ### The shape of the built tree -/

/-- The present symbols as the statements write them (00_scope.md R20). -/
theorem presentSymbols_eq_filter (freq : Vector Word 256) :
    presentSymbols freq = allSymbols.filter fun sym => symEntry freq sym ≠ 0 :=
  List.filter_congr fun _ _ => by rw [Bool.eq_iff_iff]; simp

theorem symEntry_ne_zero_of_mem_presentSymbols {freq : Vector Word 256} {sym : Byte}
    (h : sym ∈ presentSymbols freq) : symEntry freq sym ≠ 0 := by
  simpa using (List.mem_filter.1 h).2

/-- The merges leave the seeded leaves in their places (41_tree_builder.md R122). -/
theorem MergeInv.leaf_of_lt {freq : Vector Word 256} {node arena : Arena} {queue : List NodeId}
    {sum next : Nat}
    (h : MergeInv (seedLeaves freq (presentSymbols freq) 0 arena) (presentSymbols freq).length sum node
      queue next) {i : NodeId} (hi : i.val < (presentSymbols freq).length) :
    node[i] = .leaf (presentSymbols freq)[i.val] (symEntry freq (presentSymbols freq)[i.val]) := by
  rw [h.leaves i hi]
  exact seedLeaves_get freq _ 0 arena i.val hi i (Nat.zero_add _).symm

theorem Node.hasChild_leaf (c : NodeId) (sym : Byte) (f : Word) : (Node.leaf sym f).hasChild c = false := rfl

/-- What the merge loop leaves once one node is in the queue is a tree of the shape of R125. -/
theorem MergeInv.treeShape {freq : Vector Word 256} {node arena : Arena} {root : NodeId} {sum : Nat}
    (hn : presentSymbols freq ≠ [])
    (h : MergeInv (seedLeaves freq (presentSymbols freq) 0 arena) (presentSymbols freq).length sum node
      [root] (2 * (presentSymbols freq).length - 1)) :
    TreeShape node (presentSymbols freq).length (some root) := by
  have hn0 : (presentSymbols freq).length ≠ 0 := by simpa using hn
  have hroot := h.root_val hn0
  refine ⟨h.count, ?_, fun i hi => ?_, fun i j hij hj => ?_, h.merges, fun c hc => ?_⟩
  · rw [if_neg hn0, ← hroot, nodeIdOf_val]
  · rw [h.leaf_of_lt hi]
    simpa [Node.isLiveLeaf] using symEntry_ne_zero_of_mem_presentSymbols (List.getElem_mem hi)
  · rw [h.leaf_of_lt (lt_trans hij hj), h.leaf_of_lt hj]
    exact List.pairwise_iff_getElem.1 (presentSymbols_ascending freq) _ _ _ _ hij
  · have hcq : c ∉ [root] := by
      rw [List.mem_singleton]
      rintro rfl
      omega
    obtain ⟨i, ⟨-, hi, hic⟩, huniq⟩ := h.parent c (by omega) hcq
    refine ⟨i, hi, hic, fun j hj hjc => huniq j ?_ hj hjc⟩
    by_contra hlt
    rw [h.leaf_of_lt (not_le.1 hlt), Node.hasChild_leaf] at hjc
    cases hjc

/-- The tree BUILD publishes has the shape of R125, the empty tree of R124 included. -/
theorem treeShape_buildTree {freq : Vector Word 256} (node : Arena) (fits : frequencySum freq < 2 ^ 32) :
    TreeShape (buildTree freq node).1 (presentSymbols freq).length (buildTree freq node).2 := by
  by_cases hn : presentSymbols freq = []
  · rw [buildTree_empty freq node hn, hn]
    exact ⟨by simp, rfl, nofun, nofun, nofun, nofun⟩
  · obtain ⟨root, hroot, h⟩ := buildTree_inv freq node fits hn
    rw [hroot]
    exact h.treeShape hn

/-- Node i of the built tree is the leaf of the i-th present symbol (41_tree_builder.md R122). -/
theorem buildTree_leaf_of_getElem? {freq : Vector Word 256} (node : Arena)
    (fits : frequencySum freq < 2 ^ 32) {i : NodeId} {sym : Byte}
    (hi : (presentSymbols freq)[i.val]? = some sym) :
    (buildTree freq node).1[i] = .leaf sym (symEntry freq sym) := by
  obtain ⟨hlt, rfl⟩ := List.getElem?_eq_some_iff.1 hi
  obtain ⟨root, -, h⟩ := buildTree_inv freq node fits (List.ne_nil_of_length_pos (by omega))
  exact h.leaf_of_lt hlt

/-- The root's frequency is the sum of all frequencies (41_tree_builder.md R125). -/
theorem buildTree_root_freq {freq : Vector Word 256} (node : Arena) (fits : frequencySum freq < 2 ^ 32)
    {r : NodeId} (hr : (buildTree freq node).2 = some r) :
    (buildTree freq node).1[r].freq = BitVec.ofNat 32 (frequencySum freq) := by
  have hn : presentSymbols freq ≠ [] := fun hn => by
    rw [buildTree_empty freq node hn] at hr
    cases hr
  obtain ⟨root, hroot, h⟩ := buildTree_inv freq node fits hn
  obtain rfl := Option.some.inj (hroot.symm.trans hr)
  have htotal : (buildTree freq node).1[root].freq.toNat = frequencySum freq := by simpa using h.total
  rw [← htotal, BitVec.ofNat_toNat, BitVec.setWidth_eq]

/-! ### Every step -/

theorem treeInv_withBuiltTree {s : State} (fits : frequencySum s.freq < 2 ^ 32) :
    TreeInv s.withBuiltTree := by
  intro _
  rw [withBuiltTree_nleaf_toNat]
  exact ⟨treeShape_buildTree _ fits, fun _ => buildTree_root_freq _ fits⟩

theorem AccessMakes.treeInv {s t : State} (m : AccessMakes s t) (h : TreeInv s) : TreeInv t := by
  rw [m.frame]
  exact h

/-- BUILD makes a tree with the invariants; the other commands that change the tree end its validity. -/
theorem CommandMakes.treeInv {s t : State} (m : CommandMakes s t) (h : TreeInv s) : TreeInv t := by
  cases m with
  | sreset => exact nofun
  | buildOverflow => exact nofun
  | build fits => exact treeInv_withBuiltTree fits
  | _ => exact h

theorem TurnMakes.treeInv {s t : State} (m : TurnMakes s t) (h : TreeInv s) : TreeInv t := by
  cases m with
  | idle => exact h
  | access released m => exact m.treeInv h
  | command m => exact m.treeInv h
  | reset asserted => exact nofun

/-! ### The arena BUILD starts from -/

theorem val_nodeIdOf_le (n : Nat) : (nodeIdOf n).val ≤ n := Nat.mod_le n 511

/-- The two arenas hold the same nodes below id `k`. -/
def AgreeBelow (k : Nat) (node1 node2 : Arena) : Prop := ∀ i : NodeId, i.val < k → node1[i] = node2[i]

theorem agreeBelow_setNode {k : Nat} {node1 node2 : Arena} (h : AgreeBelow k node1 node2) (v : Node) :
    AgreeBelow (k + 1) (setNode node1 k v) (setNode node2 k v) := by
  intro i hi
  by_cases hk : i.val = k
  · subst hk
    have self (node : Arena) : (setNode node i.val v)[i] = v := by
      simpa using setNode_self node v i.isLt
    rw [self, self]
  · rw [setNode_ne _ v i hk, setNode_ne _ v i hk]
    exact h i (by omega)

theorem agreeBelow_seedLeaves (freq : Vector Word 256) (syms : List Byte) {i : Nat} {node1 node2 : Arena}
    (h : AgreeBelow i node1 node2) :
    AgreeBelow (i + syms.length) (seedLeaves freq syms i node1) (seedLeaves freq syms i node2) := by
  induction syms generalizing i node1 node2 with
  | nil => exact h
  | cons sym rest ih =>
    rw [List.length_cons, show i + (rest.length + 1) = i + 1 + rest.length by omega]
    exact ih (agreeBelow_setNode h _)

theorem leastKey_congr {k : Nat} {node1 node2 : Arena} (h : AgreeBelow k node1 node2)
    {q : NodeId} {rest : List NodeId} (hq : q.val < k) (hrest : ∀ n ∈ rest, n.val < k) :
    leastKey node1 q rest = leastKey node2 q rest := by
  induction rest generalizing q with
  | nil => rfl
  | cons r rest ih =>
    have hr := hrest r (List.mem_cons_self ..)
    have hless : keyLess node1 r q = keyLess node2 r q := by
      unfold keyLess
      rw [h r hr, h q hq]
    simp only [leastKey, List.foldl_cons, hless]
    refine ih ?_ fun n hn => hrest n (List.mem_cons_of_mem _ hn)
    split <;> assumption

/-- An extraction reads the keys of the queue's nodes alone (41_tree_builder.md R121). -/
theorem extractLeast_congr {k : Nat} {node1 node2 : Arena} (h : AgreeBelow k node1 node2)
    {queue : List NodeId} (hq : ∀ q ∈ queue, q.val < k) :
    extractLeast node1 queue = extractLeast node2 queue := by
  cases queue with
  | nil => rfl
  | cons q rest =>
    have hq0 := hq q (List.mem_cons_self ..)
    simp only [extractLeast, leastKey_congr h hq0 fun n hn => hq n (List.mem_cons_of_mem _ hn)]

/-- From a queue that is not empty a node is extracted (41_tree_builder.md R120). -/
theorem exists_extractLeast (node : Arena) {queue : List NodeId} (h : queue ≠ []) :
    ∃ n ∈ queue, extractLeast node queue = some (n, queue.erase n) := by
  cases he : extractLeast node queue with
  | none => exact absurd (extractLeast_none.1 he) h
  | some r =>
    obtain ⟨hn, hrest⟩ := extractLeast_some he
    exact ⟨r.1, hn, by rw [← hrest]⟩

/-- With fewer than two nodes in the queue the loop ends (41_tree_builder.md R120). -/
theorem mergeLoop_of_length_le_one (turns : Nat) (node : Arena) {queue : List NodeId} (next : Nat)
    (h : queue.length ≤ 1) : mergeLoop turns node queue next = (node, queue) := by
  match turns, queue with
  | 0, _ => rfl
  | _ + 1, [] => rfl
  | _ + 1, [_] => simp [mergeLoop, extractLeast, leastKey]

/-- One turn of the loop merges the two nodes it extracts (41_tree_builder.md R120). -/
theorem mergeLoop_succ {node : Arena} {queue queue1 queue2 : List NodeId} {a b : NodeId}
    (ha : extractLeast node queue = some (a, queue1)) (hb : extractLeast node queue1 = some (b, queue2))
    (turns next : Nat) :
    mergeLoop (turns + 1) node queue next =
      mergeLoop turns (setNode node next (.internal (node[a].freq + node[b].freq) a b))
        (queue2 ++ [nodeIdOf next]) (next + 1) := by
  simp only [mergeLoop, ha, hb]

/-- Where the loop ends at once the arenas agree on what is made as they did before. -/
theorem agreeBelow_mergeLoop_of_length_le_one (turns : Nat) {node1 node2 : Arena} {queue : List NodeId}
    {next : Nat} (h : AgreeBelow next node1 node2) (hlen : queue.length ≤ 1) :
    (mergeLoop turns node1 queue next).2 = (mergeLoop turns node2 queue next).2
      ∧ AgreeBelow (next + queue.length - 1) (mergeLoop turns node1 queue next).1
          (mergeLoop turns node2 queue next).1 := by
  rw [mergeLoop_of_length_le_one _ _ _ hlen, mergeLoop_of_length_le_one _ _ _ hlen]
  exact ⟨rfl, fun i hi => h i (by omega)⟩

/-- The merge loop reads only nodes that are made, so over arenas that agree on those it leaves the same
queue and makes the same nodes (41_tree_builder.md R126). -/
theorem agreeBelow_mergeLoop (turns : Nat) {node1 node2 : Arena} {queue : List NodeId} {next : Nat}
    (h : AgreeBelow next node1 node2) (hq : ∀ q ∈ queue, q.val < next) (ht : queue.length ≤ turns + 1) :
    (mergeLoop turns node1 queue next).2 = (mergeLoop turns node2 queue next).2
      ∧ AgreeBelow (next + queue.length - 1) (mergeLoop turns node1 queue next).1
          (mergeLoop turns node2 queue next).1 := by
  induction turns generalizing node1 node2 queue next with
  | zero => exact agreeBelow_mergeLoop_of_length_le_one 0 h ht
  | succ turns ih =>
    by_cases hlen : queue.length ≤ 1
    · exact agreeBelow_mergeLoop_of_length_le_one _ h hlen
    obtain ⟨a, haq, ha⟩ := exists_extractLeast node1 (queue := queue) (by rintro rfl; simp at hlen)
    have hlen1 := List.length_erase_of_mem haq
    obtain ⟨b, hbq, hb⟩ := exists_extractLeast node1
      (List.ne_nil_of_length_pos (by omega : 0 < (queue.erase a).length))
    have hlen2 := List.length_erase_of_mem hbq
    have hq1 : ∀ q ∈ queue.erase a, q.val < next := fun q hm => hq q (List.mem_of_mem_erase hm)
    have hsum : node1[a].freq + node1[b].freq = node2[a].freq + node2[b].freq := by
      rw [h a (hq a haq), h b (hq1 b hbq)]
    have hlen' : ((queue.erase a).erase b ++ [nodeIdOf next]).length = queue.length - 1 := by
      rw [List.length_append, List.length_singleton]
      omega
    rw [mergeLoop_succ ha hb, mergeLoop_succ (extractLeast_congr h hq ▸ ha) (extractLeast_congr h hq1 ▸ hb),
      hsum, show next + queue.length - 1 = next + 1 + (queue.length - 1) - 1 by omega, ← hlen']
    refine ih (agreeBelow_setNode h _) (fun q hm => ?_) (by omega)
    rcases List.mem_append.1 hm with hm | hm
    · exact Nat.lt_succ_of_lt (hq1 q (List.mem_of_mem_erase hm))
    · rw [List.mem_singleton.1 hm]
      exact Nat.lt_succ_of_le (val_nodeIdOf_le next)

/-- The root and the nodes 0..2N−2 that BUILD makes do not depend on the arena it starts from
(41_tree_builder.md R126). -/
theorem buildTree_congr {freq1 freq2 : Vector Word 256} (h : freq1 = freq2) (node1 node2 : Arena) :
    (buildTree freq1 node1).2 = (buildTree freq2 node2).2
      ∧ AgreeBelow (2 * (presentSymbols freq1).length - 1) (buildTree freq1 node1).1
          (buildTree freq2 node2).1 := by
  subst h
  have bare : AgreeBelow 0 node1 node2 := fun _ hi => absurd hi (Nat.not_lt_zero _)
  have seeded := agreeBelow_seedLeaves freq1 (presentSymbols freq1) bare
  rw [Nat.zero_add] at seeded
  have hbound : ∀ q ∈ (List.range (presentSymbols freq1).length).map nodeIdOf,
      q.val < (presentSymbols freq1).length := by
    intro q hq
    obtain ⟨i, hi, rfl⟩ := List.mem_map.1 hq
    exact (val_nodeIdOf_le i).trans_lt (List.mem_range.1 hi)
  obtain ⟨hqueue, hnode⟩ := agreeBelow_mergeLoop (presentSymbols freq1).length seeded hbound (by simp)
  rw [List.length_map, List.length_range, ← Nat.two_mul] at hnode
  exact ⟨congrArg List.head? hqueue, hnode⟩

/-! ### NRD -/

/-- NRD of a node id in range completes with that node (41_tree_builder.md R127). -/
theorem exec_nrd_of_le {n : NodeId} {s : State} (hv : s.treeValid = true) (hn : s.nleaf.toNat ≠ 0)
    (hle : n.val ≤ 2 * s.nleaf.toNat - 2) :
    exec (.nrd n.val) s =
      complete { s.clearResults with result0 := nodeWord s.node[n], result1 := s.node[n].freq } := by
  have hrange : ¬ (s.nleaf.toNat = 0 ∨ 2 * s.nleaf.toNat - 2 < n.val) := by omega
  simp only [exec, execNrd, hv, hrange, nodeIdOf_val, Bool.true_eq_false, if_false]

end Sys2Proof.Machine

open Sys2Proof.Machine

/-- Settles O57: of all that a turn can do only a BUILD whose sum fits makes a valid tree, and the merge
loop's invariant gives it the shape and the root frequency. -/
theorem everyStepKeepsTheTree : Obligations.EveryStepKeepsTheTree :=
  fun _ _ h e => (step_makes e).treeInv h

/-- Settles O9: the counts fit their registers, N its 9 bits and the sum its 32. -/
theorem buildPublishesTheTree : Obligations.BuildPublishesTheTree := by
  intro s h
  have hsum : (BitVec.ofNat 32 (frequencySum s.freq)).toNat = freqTotal s.freq := by
    rw [frequencySum_eq_freqTotal]
    exact Nat.mod_eq_of_lt (by omega)
  have hle := alphabetSize_le s.freq
  have hn := length_presentSymbols s.freq
  refine ⟨_, exec_build_of_fits h, completes_finish .ok rfl rfl, rfl, rfl, rfl, rfl, ?_, ?_, hsum, ?_, rfl,
    ?_, rfl, rfl⟩
  · rw [← hn]
    rfl
  · rw [← hn]
    rfl
  · rw [State.finish_nleaf, withBuiltTree_nleaf_toNat, hn]
  · rw [← hn] at hle ⊢
    exact Nat.mod_eq_of_lt (by omega)

/-- Settles O10: the invalidation comes before the sum is looked at. -/
theorem buildOverflowLeavesNoTree : Obligations.BuildOverflowLeavesNoTree := fun _ h =>
  ⟨_, exec_build_of_overflow h, completes_finish .totalOvf rfl rfl, rfl, rfl, rfl, rfl, rfl, rfl, rfl, rfl,
    rfl, rfl, rfl, rfl, rfl⟩

/-- Settles O11, from the merge loop's invariant at its end. -/
theorem builtTreeHasTheShape : Obligations.BuiltTreeHasTheShape := by
  intro s t h e
  obtain rfl := eq_of_exec_build h e
  have fits := frequencySum_lt h
  rw [← length_presentSymbols]
  refine ⟨treeShape_buildTree _ fits, fun i sym hi => buildTree_leaf_of_getElem? _ fits ?_,
    fun r => buildTree_root_freq _ fits⟩
  rw [presentSymbols_eq_filter]
  exact hi

/-- Settles O12: a merge node keeps the order in which its two children were extracted. -/
theorem buildPutsTheLowerKeyLeft : Obligations.BuildPutsTheLowerKeyLeft := by
  intro s t i f left right h e hi hnode
  obtain rfl := eq_of_exec_build h e
  rw [← length_presentSymbols] at hi
  obtain ⟨_, -, inv⟩ := buildTree_inv s.freq (freeArena s.freeCount) (frequencySum_lt h)
    (List.ne_nil_of_length_pos (by omega))
  have hmerged : (presentSymbols s.freq).length ≤ i.val := by
    by_contra hlt
    cases hnode.symm.trans (inv.leaf_of_lt (not_le.1 hlt))
  refine ⟨(keyBelow_iff ..).2 (inv.ordered i f left right hmerged hi hnode), fun c hci hcl hcr hfree => ?_⟩
  exact (keyBelow_iff ..).2 (inv.least i f left right c hmerged hi hnode hci hcl hcr hfree)

/-- Settles O13: a sum that fits leaves the arena as the one other input, and one that does not leaves no
tree. -/
theorem buildDependsOnFrequenciesAlone : Obligations.BuildDependsOnFrequenciesAlone := by
  intro s1 s2 t1 t2 hfreq e1 e2
  by_cases h : freqTotal s1.freq ≤ 2 ^ 32 - 1
  · obtain rfl := eq_of_exec_build h e1
    obtain rfl := eq_of_exec_build (hfreq ▸ h) e2
    obtain ⟨hroot, hnode⟩ := buildTree_congr hfreq (freeArena s1.freeCount) (freeArena s2.freeCount)
    have hsum : frequencySum s1.freq = frequencySum s2.freq := congrArg _ hfreq
    have hn : (presentSymbols s1.freq).length = (presentSymbols s2.freq).length := by rw [hfreq]
    refine ⟨hroot, congrArg (BitVec.ofNat 32) hsum, congrArg (BitVec.ofNat 9) hn, rfl,
      congrArg (· == 0) hn, congrArg (· == 1) hn, rfl, fun _ => ?_⟩
    rw [State.finish_nleaf, withBuiltTree_nleaf_toNat]
    exact hnode
  · have h1 := not_le.1 h
    obtain rfl := Host.Outcome.next.inj ((exec_build_of_overflow h1).symm.trans e1)
    obtain rfl := Host.Outcome.next.inj ((exec_build_of_overflow (hfreq ▸ h1)).symm.trans e2)
    exact ⟨rfl, rfl, rfl, rfl, rfl, rfl, rfl, nofun⟩

/-- Settles O14: NRD's word as a number, for each kind of node. -/
theorem nrdReadsOneNode : Obligations.NrdReadsOneNode := by
  intro n s hv hn hle
  refine ⟨_, exec_nrd_of_le hv hn hle, completes_finish .ok rfl rfl, rfl, fun sym f hleaf => ?_,
    fun f left right hnode => ?_, rfl⟩
  · rw [State.finish_result0, hleaf, toNat_nodeWord_leaf]
  · rw [State.finish_result0, hnode, toNat_nodeWord_internal]

end

section
/-! SUPPORT, then the obligations O16, O17, O18, O19, O23, O59, O15, O20 and O21. The code table: the codes
GENC derives are the paths to the leaves, its results are their lengths and their weight, every step keeps
the codes, and CRD and LRD read the tables (42_code_table.md R135 to R140). -/

namespace Sys2Proof.Machine

/-! ### What GENC answers -/

/-- The code table GENC derives from the tree (42_code_table.md R135). -/
def State.derivedCodes (s : State) : Vector CodeEntry 256 :=
  codesOfLeaves s.node (leavesInOrder s.node s.root)

/-- RESULT0 of GENC: the longest and the shortest length, or 0 for the empty tree
(42_code_table.md R137). -/
def State.codeLengthsWord (s : State) : Word :=
  if s.nleaf = 0 then 0
  else 0#16 ++ BitVec.ofNat 8 (maxLength (presentLengths s.derivedCodes))
    ++ BitVec.ofNat 8 (minLength (presentLengths s.derivedCodes))

/-- RESULT1 of GENC: the total bit length (42_code_table.md R137). -/
def State.totalBitsWord (s : State) : Word :=
  BitVec.ofNat 32 (totalBits s.node s.derivedCodes (leavesInOrder s.node s.root))

theorem exec_genc_eq {s : State} (h : s.treeValid = true) :
    exec .genc s = .next ((s.withCodes s.codeLengthsWord s.totalBitsWord).finish .ok) :=
  if_neg (by simp [h])

/-- The state that GENC with a valid tree answers. -/
theorem eq_of_exec_genc {s t : State} (h : s.treeValid = true) (e : exec .genc s = .next t) :
    t = (s.withCodes s.codeLengthsWord s.totalBitsWord).finish .ok :=
  (Host.Outcome.next.inj ((exec_genc_eq h).symm.trans e)).symm

/-! ### The codes are paths to leaves -/

/-- A derived code is the path from the root to a leaf of its symbol, at most 255 bits long
(42_code_table.md R135, R136). -/
theorem exists_follow_of_derivedCodes {s : State} {sym : Byte} {p : BitString}
    (h : symEntry s.derivedCodes sym = .present p) :
    ∃ r m f, s.root = some r ∧ follow s.node r p = some m ∧ s.node[m] = .leaf sym f ∧ p.length ≤ 255 := by
  obtain ⟨m, f, hmem, hleaf⟩ := codesOfLeaves_present h
  cases hroot : s.root with
  | none => rw [hroot] at hmem; cases hmem
  | some r =>
    rw [hroot] at hmem
    obtain ⟨q, rfl, hlen, hfollow, -⟩ := mem_visit.1 hmem
    exact ⟨r, m, f, rfl, hfollow, hleaf, hlen⟩

theorem codesDescend_derivedCodes (s : State) : CodesDescend s.derivedCodes s := by
  intro sym p h rest
  obtain ⟨r, m, f, hroot, hfollow, hleaf, -⟩ := exists_follow_of_derivedCodes h
  exact ⟨r, m, hroot, descend_of_follow hfollow hleaf rest⟩

/-- In a tree of the shape of R125 every leaf's symbol has a code (42_code_table.md R135). -/
theorem derivedCodes_ne_absent {s : State} {n : Nat} (h : TreeShape s.node n s.root) {i : NodeId}
    (hi : i.val < n) : symEntry s.derivedCodes s.node[i].symbol ≠ .absent := by
  have hvisited := h.leavesInOrder_perm.mem_iff.2 (List.mem_range.2 hi)
  obtain ⟨⟨m, p⟩, hmem, hm⟩ := List.mem_map.1 hvisited
  obtain rfl : m = i := Fin.ext hm
  obtain ⟨sym, f, hleaf, hcode⟩ := h.code_of_mem_leavesInOrder hmem
  rw [hleaf, Node.symbol, State.derivedCodes, hcode]
  exact nofun

/-- No code that leads to its symbol's leaf begins another symbol's: along the longer one the descent
would stop where the shorter one ends (42_code_table.md R140). -/
theorem CodesDescend.not_isPrefix {code : Vector CodeEntry 256} {s : State} (h : CodesDescend code s)
    {a b : Byte} {p q : BitString} (hab : a ≠ b) (ha : symEntry code a = .present p)
    (hb : symEntry code b = .present q) : ¬ p <+: q := by
  rintro ⟨rest, rfl⟩
  obtain ⟨r, m, hroot, hp⟩ := h a p ha rest
  obtain ⟨r', m', hroot', hq⟩ := h b (p ++ rest) hb []
  obtain rfl := Option.some.inj (hroot.symm.trans hroot')
  rw [List.append_nil, hp] at hq
  simp only [Option.some.injEq, Prod.mk.injEq] at hq
  obtain ⟨-, -, heq⟩ := hq
  exact hab heq

/-! ### The lengths of the codes -/

theorem TreeShape.root_val {node : Arena} {n : Nat} {r : NodeId} (h : TreeShape node n (some r)) :
    1 ≤ n ∧ r.val = 2 * n - 2 := by
  have hroot := h.root_eq
  have hcount := h.count
  split at hroot
  · cases hroot
  · obtain rfl := Option.some.inj hroot
    exact ⟨by omega, val_nodeIdOf (by omega)⟩

/-- A path from the root to a leaf has at most N−1 steps, and with two leaves or more at least one
(42_code_table.md R136). -/
theorem TreeShape.length_bounds {node : Arena} {n : Nat} {r m : NodeId} {p : BitString} {sym : Byte}
    {f : Word} (h : TreeShape node n (some r)) (hfollow : follow node r p = some m)
    (hleaf : node[m] = .leaf sym f) : (2 ≤ n → 1 ≤ p.length) ∧ p.length ≤ n - 1 := by
  obtain ⟨hn, hr⟩ := h.root_val
  obtain ⟨hbound, -, hlen⟩ := h.follow_bound (by omega) hfollow
  have hm := h.lt_of_leaf (by omega) hleaf
  refine ⟨fun h2 => List.length_pos_iff.2 ?_, by omega⟩
  rintro rfl
  obtain rfl := Option.some.inj hfollow
  omega

theorem mem_presentLengths {code : Vector CodeEntry 256} {l : Nat} :
    l ∈ presentLengths code ↔ ∃ sym p, symEntry code sym = .present p ∧ p.length = l := by
  simp only [presentLengths, List.mem_filterMap, mem_allSymbols, true_and]
  refine exists_congr fun sym => ?_
  cases symEntry code sym <;> simp

/-- The longest length is attained, and no length is longer. -/
theorem maxLength_spec {lengths : List Nat} (h : lengths ≠ []) :
    maxLength lengths ∈ lengths ∧ ∀ l ∈ lengths, l ≤ maxLength lengths := by
  rw [← List.max?_eq_some_iff]
  obtain ⟨l, rest, rfl⟩ := List.exists_cons_of_ne_nil h
  rw [List.max?_cons', maxLength, List.foldl_cons, Nat.zero_max]

/-- The shortest length is attained, and no length is shorter. -/
theorem minLength_spec {lengths : List Nat} (h : lengths ≠ []) :
    minLength lengths ∈ lengths ∧ ∀ l ∈ lengths, minLength lengths ≤ l := by
  rw [← List.min?_eq_some_iff]
  obtain ⟨l, rest, rfl⟩ := List.exists_cons_of_ne_nil h
  exact List.min?_cons'

/-- The lengths fit the 8-bit fields of RESULT0 (42_code_table.md R136). -/
theorem le_of_mem_presentLengths {s : State} {l : Nat} (h : l ∈ presentLengths s.derivedCodes) :
    l ≤ 255 := by
  obtain ⟨sym, p, hp, rfl⟩ := mem_presentLengths.1 h
  obtain ⟨-, -, -, -, -, -, hlen⟩ := exists_follow_of_derivedCodes hp
  exact hlen

/-- The two byte fields of RESULT0, and the 0 above them (42_code_table.md R137). -/
theorem extractLsb'_lengthBytes (long short : Byte) :
    (0#16 ++ long ++ short).extractLsb' 0 8 = short ∧ (0#16 ++ long ++ short).extractLsb' 8 8 = long
      ∧ (0#16 ++ long ++ short).extractLsb' 16 16 = 0#16 := by
  refine ⟨BitVec.extractLsb'_append_eq_right, ?_, ?_⟩
  · rw [BitVec.extractLsb'_append_eq_of_le (by decide)]
    exact BitVec.extractLsb'_append_eq_right
  · rw [BitVec.extractLsb'_append_eq_of_le (by decide)]
    exact BitVec.extractLsb'_append_eq_left

/-- With a code present, RESULT0 of GENC holds the shortest and the longest length
(42_code_table.md R137). -/
theorem codeLengthsWord_fields {s : State} (hn : s.nleaf ≠ 0) (h : presentLengths s.derivedCodes ≠ []) :
    (s.codeLengthsWord.extractLsb' 0 8).toNat = minLength (presentLengths s.derivedCodes)
      ∧ (s.codeLengthsWord.extractLsb' 8 8).toNat = maxLength (presentLengths s.derivedCodes)
      ∧ s.codeLengthsWord.extractLsb' 16 16 = 0 := by
  have hmin := le_of_mem_presentLengths (minLength_spec h).1
  have hmax := le_of_mem_presentLengths (maxLength_spec h).1
  rw [State.codeLengthsWord, if_neg hn]
  obtain ⟨hshort, hlong, hzero⟩ := extractLsb'_lengthBytes
    (BitVec.ofNat 8 (maxLength (presentLengths s.derivedCodes)))
    (BitVec.ofNat 8 (minLength (presentLengths s.derivedCodes)))
  refine ⟨?_, ?_, hzero⟩
  · rw [hshort]
    exact Nat.mod_eq_of_lt (by omega)
  · rw [hlong]
    exact Nat.mod_eq_of_lt (by omega)

/-! ### The total bit length -/

/-- The traversal visits each of the leaves 0..n−1 once, so the sum over it is the sum over them
(42_code_table.md R137). -/
theorem TreeShape.totalBits_eq {node : Arena} {n : Nat} {root : Option NodeId}
    (h : TreeShape node n root) (code : Vector CodeEntry 256) :
    totalBits node code (leavesInOrder node root) =
      ((List.range n).map fun i =>
        node[nodeIdOf i].freq.toNat * (symEntry code node[nodeIdOf i].symbol).length).sum := by
  rw [← (h.leavesInOrder_perm.map _).sum_eq, List.map_map, totalBits]
  congr 1
  refine List.map_congr_left fun leaf hl => ?_
  obtain ⟨sym, f, hleaf, -⟩ := h.code_of_mem_leavesInOrder hl
  simp only [Function.comp_apply, nodeIdOf_val, hleaf, Node.freq, Node.symbol]

/-! ### Every step -/

theorem AccessMakes.codesInv {s t : State} (m : AccessMakes s t) (h : CodesInv s) : CodesInv t := by
  rw [m.frame]
  exact h

/-- GENC derives the codes anew from the tree; the commands that change the tree end their validity. -/
theorem CommandMakes.codesInv {s t : State} (m : CommandMakes s t) (h : CodesInv s) : CodesInv t := by
  cases m with
  | sreset => exact nofun
  | buildOverflow => exact nofun
  | build fits => exact nofun
  | genc a b valid => exact fun _ => codesDescend_derivedCodes s
  | _ => exact h

theorem TurnMakes.codesInv {s t : State} (m : TurnMakes s t) (h : CodesInv s) : CodesInv t := by
  cases m with
  | idle => exact h
  | access released m => exact m.codesInv h
  | command m => exact m.codesInv h
  | reset asserted => exact nofun

/-! ### CRD and LRD -/

theorem exec_crd_of_absent {sym : Byte} {w : Nat} {s : State} (hv : s.codesValid = true) (hw : w ≤ 7)
    (h : symEntry s.code sym = .absent) : exec (.crd sym w) s = complete s.clearResults := by
  simp only [exec, execCrd, hv, not_lt.2 hw, h, Bool.true_eq_false, if_false]

theorem exec_crd_of_present {sym : Byte} {w : Nat} {s : State} {p : BitString} (hv : s.codesValid = true)
    (hw : w ≤ 7) (h : symEntry s.code sym = .present p) :
    exec (.crd sym w) s =
      complete
        { s.clearResults with
          result0 := codeWord p w
          result1 := flaggedByte (BitVec.ofNat 8 p.length) } := by
  simp only [exec, execCrd, hv, not_lt.2 hw, h, Bool.true_eq_false, if_false]

theorem exec_lrd_of_leaf {i : Fin 256} {sym : Byte} {f : Word} {s : State} (hv : s.codesValid = true)
    (hi : i.val < s.nleaf.toNat) (h : s.node[s.leafOrd[i]] = .leaf sym f) :
    exec (.lrd i.val) s = complete { s.clearResults with result0 := sym.setWidth 32, result1 := f } := by
  have hidx : Fin.ofNat 256 i.val = i := Fin.ofNat_val_eq_self i
  simp only [exec, execLrd, hv, not_le.2 hi, hidx, h, Bool.true_eq_false, if_false]

end Sys2Proof.Machine

open Sys2Proof.Machine

/-- Settles O16: the code table is written from the paths that the traversal follows. -/
theorem gencCodesReachTheirLeaves : Obligations.GencCodesReachTheirLeaves := by
  intro s t hv e
  obtain rfl := eq_of_exec_genc hv e
  exact ⟨fun _ => codesDescend_derivedCodes s, fun h _ hi => derivedCodes_ne_absent h hi⟩

/-- Settles O17: codes that lead to leaves of different symbols cannot continue one another. -/
theorem gencCodesArePrefixFree : Obligations.GencCodesArePrefixFree := by
  intro s t a b p q hv e hab ha hb
  obtain rfl := eq_of_exec_genc hv e
  exact (codesDescend_derivedCodes s).not_isPrefix hab ha hb

/-- Settles O18: the code is a path from the root to a leaf. -/
theorem gencCodeLengthsAreBounded : Obligations.GencCodeLengthsAreBounded := by
  intro s t sym p hv h e hp
  obtain rfl := eq_of_exec_genc hv e
  obtain ⟨r, m, f, hroot, hfollow, hleaf, -⟩ := exists_follow_of_derivedCodes hp
  rw [hroot] at h
  obtain ⟨hlow, hhigh⟩ := h.length_bounds hfollow hleaf
  exact ⟨fun h2 => ⟨hlow h2, hhigh⟩, fun h1 => by omega⟩

/-- Settles O19: the extrema of the lengths are lengths of codes, and each fits its byte of RESULT0. -/
theorem gencReportsTheLengths : Obligations.GencReportsTheLengths := by
  intro s t hv e
  obtain rfl := eq_of_exec_genc hv e
  refine ⟨fun hn => if_pos hn, fun sym p hn hp => ?_⟩
  have hlen : p.length ∈ presentLengths s.derivedCodes := mem_presentLengths.2 ⟨sym, p, hp, rfl⟩
  have hne := List.ne_nil_of_mem hlen
  obtain ⟨hshort, hlong, hzero⟩ := codeLengthsWord_fields hn hne
  obtain ⟨hminMem, hmin⟩ := minLength_spec hne
  obtain ⟨hmaxMem, hmax⟩ := maxLength_spec hne
  exact ⟨hshort.trans_le (hmin _ hlen), (hmax _ hlen).trans_eq hlong.symm, hzero,
    mem_presentLengths.1 (hshort ▸ hminMem), mem_presentLengths.1 (hlong ▸ hmaxMem)⟩

/-- Settles O23: the traversal's leaves are the nodes 0..N−1. -/
theorem gencReportsTheTotalBits : Obligations.GencReportsTheTotalBits := by
  intro s t hv h e
  obtain rfl := eq_of_exec_genc hv e
  exact congrArg (· % 2 ^ 32) (h.totalBits_eq s.derivedCodes)

/-- Settles O59: of all that a turn can do only GENC writes the codes of a valid tree, and it writes the
paths to its leaves. -/
theorem everyStepKeepsTheCodes : Obligations.EveryStepKeepsTheCodes :=
  fun _ _ h e => (step_makes e).codesInv h

/-- Settles O15: GENC with a valid tree has one outcome, written out in `State.withCodes`. -/
theorem gencPublishesTheCodes : Obligations.GencPublishesTheCodes := fun _ hv =>
  ⟨_, exec_genc_eq hv, completes_finish .ok rfl rfl, rfl, rfl⟩

/-- Settles O20, a case for each kind of code entry. -/
theorem crdReadsOneCodeWord : Obligations.CrdReadsOneCodeWord := by
  intro sym w s hv hw hlen
  cases h : symEntry s.code sym with
  | absent =>
    exact ⟨_, exec_crd_of_absent hv hw h, completes_finish .ok rfl rfl, fun _ => ⟨rfl, rfl⟩, nofun, rfl⟩
  | present p =>
    rw [h, CodeEntry.length] at hlen
    refine ⟨_, exec_crd_of_present hv hw h, completes_finish .ok rfl rfl, nofun, ?_, rfl⟩
    rintro _ ⟨⟩
    refine ⟨fun j hj => getLsbD_codeWord p w j hj, (toNat_flaggedByte _).trans ?_⟩
    rw [BitVec.toNat_ofNat, Nat.mod_eq_of_lt (by omega)]

/-- Settles O21: the index is below the number of leaves and its entry names a leaf. -/
theorem lrdReadsOneLeaf : Obligations.LrdReadsOneLeaf := fun _ sym _ _ hv hi h =>
  ⟨_, exec_lrd_of_leaf hv hi h, completes_finish .ok rfl rfl,
    BitVec.toNat_setWidth_of_le (b := sym) (by decide), rfl, rfl⟩

end

section
/-! SUPPORT, then the obligations O24, O40 and O34. The raw bit-buffer commands, and which commands use
which side of the bit buffer (43_bit_buffer.md R150 to R158). -/

namespace Sys2Proof

/-! ### The side a command uses -/

/-- The command uses the write side of the bit buffer (43_bit_buffer.md R156). -/
def Instr.usesWriteSide : Instr → Bool
  | .estart | .esym _ | .eflush | .bpush _ _ => true
  | _ => false

/-- The command uses the read side of the bit buffer and the IN FIFO (43_bit_buffer.md R156). -/
def Instr.usesReadSide : Instr → Bool
  | .dstart | .dsym | .bget => true
  | _ => false

theorem Instr.usesWriteSide_iff {i : Instr} : i.usesWriteSide = true ↔
    i = .estart ∨ i = .eflush ∨ (∃ sym, i = .esym sym) ∨ (∃ n arg, i = .bpush n arg) := by
  cases i <;> simp [Instr.usesWriteSide]

theorem Instr.usesReadSide_iff {i : Instr} :
    i.usesReadSide = true ↔ i = .dstart ∨ i = .dsym ∨ i = .bget := by
  cases i <;> simp [Instr.usesReadSide]

/-- No command uses both sides. -/
theorem Instr.usesReadSide_of_usesWriteSide {i : Instr} (h : i.usesWriteSide = true) :
    i.usesReadSide = false := by
  obtain rfl | rfl | ⟨sym, rfl⟩ | ⟨n, arg, rfl⟩ := Instr.usesWriteSide_iff.1 h <;> rfl

end Sys2Proof

namespace Sys2Proof.Machine

/-! ### Commands that push bits -/

/-- `s` after a command has pushed `p`, before it completes: RESULT0 is the number of bytes emitted and
RESULT1 the number of bits pushed (43_bit_buffer.md R157, 44_encode.md R166). -/
def State.withPushed (s : State) (p : BitString) : State :=
  { s.clearResults.pushBits p with
    result0 := BitVec.ofNat 32 (s.pushCount p.length)
    result1 := BitVec.ofNat 32 p.length }

theorem withPushed_frame (s : State) (p : BitString) :
    s.withPushed p =
      { s with
        pend := (s.withPushed p).pend, outq := (s.withPushed p).outq
        result0 := (s.withPushed p).result0, result1 := (s.withPushed p).result1 } := by
  rw [State.withPushed, pushBits_frame]
  rfl

theorem withPushed_writtenBits (s : State) (p : BitString) :
    (s.withPushed p).writtenBits = s.writtenBits ++ p := pushBits_writtenBits p s.clearResults

theorem withPushed_outq_prefix (s : State) (p : BitString) : s.outq <+: (s.withPushed p).outq :=
  pushBits_outq_prefix p s.clearResults

theorem withPushed_outq_length {s : State} (h : s.pend.length ≤ 7) (p : BitString) :
    (s.withPushed p).outq.length = s.outq.length + (s.pend.length + p.length) / 8 :=
  pushBits_outq_length p s.clearResults h

theorem withPushed_pend_length {s : State} (h : s.pend.length ≤ 7) (p : BitString) :
    (s.withPushed p).pend.length = (s.pend.length + p.length) % 8 :=
  pushBits_pend_length p s.clearResults h

theorem completes_withPushed (s : State) (p : BitString) :
    Completes .ok s ((s.withPushed p).finish .ok) := by
  rw [withPushed_frame]
  exact completes_finish .ok rfl rfl

theorem withPushed_finish_frame (s : State) (p : BitString) (cc : CompletionCode) :
    (s.withPushed p).finish cc =
      { s.withCompletionOf ((s.withPushed p).finish cc) with
        pend := (s.withPushed p).pend, outq := (s.withPushed p).outq } := by
  rw [withPushed_frame]
  rfl

@[simp] theorem length_argBits (n : Nat) (arg : Word) : (argBits n arg).length = n := length_msbBits arg n

/-- BPUSH where the OUT FIFO has room for its bytes (43_bit_buffer.md R151, R157). -/
theorem exec_bpush_of_room {n : Nat} {arg : Word} {s : State} (hn : n ≤ 32)
    (room : (s.pend.length + n) / 8 ≤ s.outDepth - s.outq.length) :
    exec (.bpush n arg) s = .next ((s.withPushed (argBits n arg)).finish .ok) := by
  have hroom : s.outRoom (s.pushCount n) = true := decide_eq_true room
  simp only [exec, execBpush, not_lt.2 hn, hroom, if_true, if_false, complete, State.withPushed,
    length_argBits]

/-! ### Reading one bit -/

/-- BGET with a bit available completes with NextBit's bit and state (43_bit_buffer.md R158). -/
theorem exec_bget_of_bit {s t : State} {x : Bool} (h : s.clearResults.nextBit = .bit x t) :
    exec .bget s = complete { t with result0 := if x then 1 else 0 } := by
  simp only [exec, execBget, h]

/-! ### The two sides of the bit buffer -/

/-- From `s` to `t` the command `i` has changed no side of the bit buffer but the one it uses
(43_bit_buffer.md R156). -/
structure KeepsUnusedSides (i : Instr) (s t : State) : Prop where
  write : i.usesWriteSide = false → t.pend = s.pend
  read : i.usesReadSide = false → t.resid = s.resid ∧ t.inq = s.inq

theorem nextIs_keepsBothSides {i : Instr} {s t : State} (hpend : t.pend = s.pend)
    (hresid : t.resid = s.resid) (hinq : t.inq = s.inq) : NextIs (KeepsUnusedSides i s) (.next t) :=
  ⟨fun _ => hpend, fun _ => ⟨hresid, hinq⟩⟩

theorem nextIs_keepsReadSide {i : Instr} {s t : State} (h : i.usesWriteSide = true)
    (hresid : t.resid = s.resid) (hinq : t.inq = s.inq) : NextIs (KeepsUnusedSides i s) (.next t) :=
  ⟨by simp [h], fun _ => ⟨hresid, hinq⟩⟩

theorem nextIs_keepsWriteSide {i : Instr} {s t : State} (h : i.usesReadSide = true)
    (hpend : t.pend = s.pend) : NextIs (KeepsUnusedSides i s) (.next t) :=
  ⟨fun _ => hpend, by simp [h]⟩

theorem reject_keepsSides (i : Instr) (cc : CompletionCode) (s : State) :
    NextIs (KeepsUnusedSides i s) (reject cc s) := nextIs_keepsBothSides rfl rfl rfl

theorem hold_keepsSides (i : Instr) (s : State) : NextIs (KeepsUnusedSides i s) (hold s) :=
  nextIs_keepsBothSides rfl rfl rfl

/-- Pushing bits leaves the read side and the IN FIFO alone. -/
theorem complete_pushBits_keepsSides {i : Instr} (h : i.usesWriteSide = true) (s : State) (p : BitString)
    (a b : Word) :
    NextIs (KeepsUnusedSides i s) (complete { s.clearResults.pushBits p with result0 := a, result1 := b }) := by
  rw [pushBits_frame]
  exact nextIs_keepsReadSide h rfl rfl

theorem execFinc_keepsSides (sym : Byte) (s : State) :
    NextIs (KeepsUnusedSides (.finc sym) s) (execFinc sym s) := by
  unfold execFinc
  split
  · exact nextIs_keepsBothSides rfl rfl rfl
  · exact nextIs_keepsBothSides rfl rfl rfl

theorem execBuild_keepsSides (s : State) : NextIs (KeepsUnusedSides .build s) (execBuild s) := by
  unfold execBuild
  dsimp only
  split
  · exact nextIs_keepsBothSides rfl rfl rfl
  · exact nextIs_keepsBothSides rfl rfl rfl

theorem execGenc_keepsSides (s : State) : NextIs (KeepsUnusedSides .genc s) (execGenc s) := by
  cases hv : s.treeValid with
  | false =>
    rw [execGenc, if_pos hv]
    exact reject_keepsSides ..
  | true =>
    rw [show execGenc s = _ from exec_genc_eq hv]
    exact nextIs_keepsBothSides rfl rfl rfl

theorem execCrd_keepsSides (sym : Byte) (idx : Nat) (s : State) :
    NextIs (KeepsUnusedSides (.crd sym idx) s) (execCrd sym idx s) := by
  unfold execCrd
  split
  · exact reject_keepsSides ..
  split
  · exact reject_keepsSides ..
  split
  · exact nextIs_keepsBothSides rfl rfl rfl
  · exact nextIs_keepsBothSides rfl rfl rfl

theorem execLrd_keepsSides (idx : Nat) (s : State) :
    NextIs (KeepsUnusedSides (.lrd idx) s) (execLrd idx s) := by
  unfold execLrd
  split
  · exact reject_keepsSides ..
  split
  · exact reject_keepsSides ..
  split
  · exact nextIs_keepsBothSides rfl rfl rfl
  · trivial

theorem execNrd_keepsSides (idx : Nat) (s : State) :
    NextIs (KeepsUnusedSides (.nrd idx) s) (execNrd idx s) := by
  unfold execNrd
  split
  · exact reject_keepsSides ..
  split
  · exact reject_keepsSides ..
  · exact nextIs_keepsBothSides rfl rfl rfl

theorem execEstart_keepsSides (s : State) : NextIs (KeepsUnusedSides .estart s) (execEstart s) := by
  unfold execEstart
  split
  · exact reject_keepsSides ..
  · exact nextIs_keepsReadSide rfl rfl rfl

theorem execEsym_keepsSides (sym : Byte) (s : State) :
    NextIs (KeepsUnusedSides (.esym sym) s) (execEsym sym s) := by
  unfold execEsym
  split
  · exact reject_keepsSides ..
  split
  · exact nextIs_keepsBothSides rfl rfl rfl
  dsimp only
  split
  · exact complete_pushBits_keepsSides rfl ..
  · exact hold_keepsSides ..

theorem execBpush_keepsSides (n : Nat) (arg : Word) (s : State) :
    NextIs (KeepsUnusedSides (.bpush n arg) s) (execBpush n arg s) := by
  unfold execBpush
  split
  · exact reject_keepsSides ..
  dsimp only
  split
  · exact complete_pushBits_keepsSides rfl ..
  · exact hold_keepsSides ..

theorem execEflush_keepsSides (s : State) : NextIs (KeepsUnusedSides .eflush s) (execEflush s) := by
  unfold execEflush
  dsimp only
  generalize (if 0 < s.pend.length then 1 else 0) = k
  split
  · rw [flushBits_frame]
    exact nextIs_keepsReadSide rfl rfl rfl
  · exact hold_keepsSides ..

theorem execDstart_keepsSides (s : State) : NextIs (KeepsUnusedSides .dstart s) (execDstart s) := by
  unfold execDstart
  split
  · exact reject_keepsSides ..
  · exact nextIs_keepsWriteSide rfl rfl

theorem execDsym_keepsSides (s : State) : NextIs (KeepsUnusedSides .dsym s) (execDsym s) := by
  unfold execDsym
  split
  · exact reject_keepsSides ..
  split
  · exact nextIs_keepsBothSides rfl rfl rfl
  split
  · trivial
  split
  · split
    · exact nextIs_keepsWriteSide rfl rfl
    · exact hold_keepsSides ..
  · split
    · rw [consumeBits_frame]
      exact nextIs_keepsWriteSide rfl rfl
    · exact hold_keepsSides ..

theorem execBget_keepsSides (s : State) : NextIs (KeepsUnusedSides .bget s) (execBget s) := by
  cases ha : s.clearResults.avail with
  | nil =>
    rw [execBget, nextBit_none ha]
    cases s.clearResults.inEos
    · exact hold_keepsSides ..
    · exact reject_keepsSides ..
  | cons x rest =>
    obtain ⟨t, ht, -, hframe, -⟩ := nextBit_avail ha
    rw [show execBget s = _ from exec_bget_of_bit ht, hframe]
    exact nextIs_keepsWriteSide rfl rfl

/-- A command but SRESET changes no side of the bit buffer but the one it uses (43_bit_buffer.md R156). -/
theorem exec_keepsUnusedSides {i : Instr} (h : i ≠ .sreset) (s : State) :
    NextIs (KeepsUnusedSides i s) (exec i s) := by
  cases i with
  | sreset => exact absurd rfl h
  | nop => exact nextIs_keepsBothSides rfl rfl rfl
  | fclr => exact nextIs_keepsBothSides rfl rfl rfl
  | fwr sym arg => exact nextIs_keepsBothSides rfl rfl rfl
  | frd sym => exact nextIs_keepsBothSides rfl rfl rfl
  | finc sym => exact execFinc_keepsSides sym s
  | build => exact execBuild_keepsSides s
  | genc => exact execGenc_keepsSides s
  | crd sym idx => exact execCrd_keepsSides sym idx s
  | lrd idx => exact execLrd_keepsSides idx s
  | nrd idx => exact execNrd_keepsSides idx s
  | estart => exact execEstart_keepsSides s
  | esym sym => exact execEsym_keepsSides sym s
  | eflush => exact execEflush_keepsSides s
  | bpush n arg => exact execBpush_keepsSides n arg s
  | dstart => exact execDstart_keepsSides s
  | dsym => exact execDsym_keepsSides s
  | bget => exact execBget_keepsSides s

end Sys2Proof.Machine

open Sys2Proof Sys2Proof.Machine

/-- Settles O24: BPUSH pushes the first n bits of ARG by PushBits, which loses none. -/
theorem bpushPushesArgBits : Obligations.BpushPushesArgBits := by
  intro n arg s hn hpend room
  have hlen := length_argBits n arg
  refine ⟨_, exec_bpush_of_room hn room, completes_withPushed s _, withPushed_writtenBits s _,
    withPushed_outq_prefix s _, (withPushed_outq_length hpend _).trans (by rw [hlen]),
    (withPushed_pend_length hpend _).trans (by rw [hlen]), ?_, ?_, withPushed_finish_frame s _ .ok⟩
  · rw [State.finish_result0, State.withPushed, hlen, State.pushCount]
  · rw [State.finish_result1, State.withPushed, hlen]

/-- Settles O40: the sides a command uses are read off its name, and it keeps the others. -/
theorem readAndWriteSidesAreSeparate : Obligations.ReadAndWriteSidesAreSeparate := by
  intro i s t hi e
  obtain ⟨hwrite, hread⟩ := nextIs_iff.1 (exec_keepsUnusedSides hi s) t e
  have writes (hp : t.pend ≠ s.pend) : i.usesWriteSide = true :=
    Bool.eq_true_of_not_eq_false (mt hwrite hp)
  have reads (hr : t.resid ≠ s.resid ∨ t.inq ≠ s.inq) : i.usesReadSide = true :=
    Bool.eq_true_of_not_eq_false (mt hread (not_and_or.2 hr))
  exact ⟨fun hp => hread (Instr.usesReadSide_of_usesWriteSide (writes hp)),
    fun hp => Instr.usesWriteSide_iff.1 (writes hp), fun hr => Instr.usesReadSide_iff.1 (reads hr)⟩

/-- Settles O34: NextBit takes the first available bit and leaves the rest. -/
theorem bgetReadsOneBit : Obligations.BgetReadsOneBit := by
  intro s x rest h
  obtain ⟨t, hbit, havail, hframe, -⟩ := nextBit_avail (s := s.clearResults) h
  obtain ⟨hinq, -⟩ := nextBit_inq hbit
  refine ⟨_, exec_bget_of_bit hbit, ?_, havail, hinq, rfl, ?_, ?_⟩
  · rw [hframe]
    exact completes_finish .ok rfl rfl
  · rw [hframe]
    rfl
  · rw [hframe]
    rfl

end

section
/-! SUPPORT, then the obligations O26, O28, O29, O25 and O27. The encode stream, one rule for each outcome
that the statements speak of, and the message that composes the ESYMs (44_encode.md R165 to R171). -/

namespace Sys2Proof.Machine

/-! ### ESTART and ESYM -/

/-- ESTART with a valid code table (44_encode.md R165). -/
theorem exec_estart_of_codesValid {s : State} (hv : s.codesValid = true) :
    exec .estart s = complete { s.clearResults with pend := [], encActive := true } := by
  simp [exec, execEstart, hv]

/-- ESYM of a present symbol where the OUT FIFO has room for its bytes (44_encode.md R166). -/
theorem exec_esym_of_room {sym : Byte} {p : BitString} {s : State} (ha : s.encActive = true)
    (hp : symEntry s.code sym = .present p)
    (room : (s.pend.length + p.length) / 8 ≤ s.outDepth - s.outq.length) :
    exec (.esym sym) s = .next ((s.withPushed p).finish .ok) := by
  have hroom : s.outRoom (s.pushCount p.length) = true := decide_eq_true room
  simp [exec, execEsym, ha, hp, hroom, complete, State.withPushed]

/-- ESYM of a symbol with no code fails, and the session ends before the failure is reported
(44_encode.md R166). -/
theorem exec_esym_of_absent {sym : Byte} {s : State} (ha : s.encActive = true)
    (hp : symEntry s.code sym = .absent) :
    exec (.esym sym) s = reject .noSymbol { s with encActive := false } := by
  simp [exec, execEsym, ha, hp]

/-! ### EFLUSH -/

/-- EFLUSH with nothing pending needs no room and emits nothing (44_encode.md R169). -/
theorem exec_eflush_of_nil {s : State} (h : s.pend = []) :
    exec .eflush s = complete { s.clearResults with pend := [], encActive := false } := by
  simp [exec, execEflush, h, State.outRoom, State.flushBits, State.clearResults]

/-- EFLUSH with bits pending and room for one byte emits their zero-padded byte (44_encode.md R169). -/
theorem exec_eflush_of_pending {s : State} (h : s.pend ≠ []) (room : 1 ≤ s.outDepth - s.outq.length) :
    exec .eflush s = complete { s.clearResults with
      pend := [], outq := s.outq ++ [byteOfBits s.pend], encActive := false
      result0 := 1, result1 := BitVec.ofNat 32 (8 - s.pend.length) } := by
  have hpos : 0 < s.pend.length := List.length_pos_iff.2 h
  have hroom : s.outRoom 1 = true := decide_eq_true room
  simp [exec, execEflush, hpos, hroom, State.flushBits, State.clearResults, State.emit]

/-! ### Runs of ESYMs -/

/-- Nothing but the completion fields, the pending bits and the OUT FIFO differs: the frame of ESYM
(44_encode.md R166). -/
def OnlyWriteSideChanged (s t : State) : Prop :=
  t = { s.withCompletionOf t with pend := t.pend, outq := t.outq }

theorem OnlyWriteSideChanged.refl (s : State) : OnlyWriteSideChanged s s := rfl

theorem OnlyWriteSideChanged.trans {s t u : State} (hst : OnlyWriteSideChanged s t)
    (htu : OnlyWriteSideChanged t u) : OnlyWriteSideChanged s u :=
  have hu := congrArg
    (fun x : State => ({ x.withCompletionOf u with pend := u.pend, outq := u.outq } : State)) hst
  Eq.trans htu hu

theorem OnlyWriteSideChanged.code {s t : State} (h : OnlyWriteSideChanged s t) : t.code = s.code :=
  (congrArg State.code h :)

theorem OnlyWriteSideChanged.encActive {s t : State} (h : OnlyWriteSideChanged s t) :
    t.encActive = s.encActive := (congrArg State.encActive h :)

theorem OnlyWriteSideChanged.outDepth {s t : State} (h : OnlyWriteSideChanged s t) :
    t.outDepth = s.outDepth := (congrArg State.outDepth h :)

theorem CodeEntry.exists_present_of_ne_absent {e : CodeEntry} (h : e ≠ .absent) :
    ∃ p, e = .present p := by
  cases e with
  | absent => exact absurd rfl h
  | present p => exact ⟨p, rfl⟩

theorem bodyBits_cons_of_present {code : Vector CodeEntry 256} {sym : Byte} {p : BitString}
    (h : symEntry code sym = .present p) (m : List Byte) :
    bodyBits code (sym :: m) = p ++ bodyBits code m := by
  simp [bodyBits, codeOf, h]

end Sys2Proof.Machine

open Sys2Proof Sys2Proof.Machine

/-- Settles O26: ESYM pushes the code by PushBits, which loses none of its bits. -/
theorem esymPushesTheCode : Obligations.EsymPushesTheCode := fun _ p s ha hp hpend room =>
  ⟨_, exec_esym_of_room ha hp room, completes_withPushed s p, withPushed_writtenBits s p,
    withPushed_outq_prefix s p, withPushed_outq_length hpend p, withPushed_pend_length hpend p, rfl, rfl,
    withPushed_finish_frame s p .ok⟩

/-- Settles O28: the byte that packs the pending bits reads back as those bits and the zeros of the pad. -/
theorem eflushPadsTheLastByte : Obligations.EflushPadsTheLastByte := by
  intro s hpend room
  by_cases h : s.pend = []
  · exact ⟨_, exec_eflush_of_nil h, completes_finish .ok rfl rfl, fun _ => ⟨rfl, rfl, rfl⟩,
      fun hne => absurd h hne, rfl⟩
  · refine ⟨_, exec_eflush_of_pending h (room h), completes_finish .ok rfl rfl, fun hnil => absurd hnil h,
      fun _ => ⟨?_, List.length_append, List.prefix_append .., rfl, ?_⟩, rfl⟩
    · have hbyte := bitsOfByte_byteOfBits s.pend (by omega)
      simp [State.writtenBits, hbyte]
    · exact Nat.mod_eq_of_lt (by omega)

/-- Settles O29, by induction on the message: each ESYM appends its symbol's code and leaves a state in
which the rest of the message has its room. -/
theorem encodedMessageIsItsCodes : Obligations.EncodedMessageIsItsCodes := by
  intro m
  induction m with
  | nil =>
    intro s _ hpend _ _
    exact ⟨s, rfl, (List.append_nil _).symm, List.prefix_refl _, hpend, .refl s⟩
  | cons sym rest ih =>
    intro s ha hpend hpresent room
    obtain ⟨hsym, hrest⟩ := List.forall_mem_cons.1 hpresent
    obtain ⟨p, hp⟩ := CodeEntry.exists_present_of_ne_absent hsym
    rw [bodyBits_cons_of_present hp] at room ⊢
    rw [List.length_append] at room
    obtain ⟨u, hu, -, hbits, hprefix, houtq, hulen, -, -, hframe⟩ :=
      esymPushesTheCode sym p s ha hp hpend (by omega)
    replace hframe : OnlyWriteSideChanged s u := hframe
    have huroom : (u.pend.length + (bodyBits s.code rest).length) / 8 ≤ u.outDepth - u.outq.length := by
      rw [hulen, houtq, hframe.outDepth]
      omega
    rw [← hframe.code] at hrest huroom ⊢
    obtain ⟨t, ht, htbits, htprefix, htpend, htframe⟩ :=
      ih u (hframe.encActive.trans ha) (by omega) hrest huroom
    exact ⟨t, (execAll_cons_of_next hu _).trans ht, by rw [htbits, hbits, List.append_assoc],
      hprefix.trans htprefix, htpend, hframe.trans htframe⟩

/-- Settles O25: with a valid code table ESTART has one outcome. -/
theorem estartStartsASession : Obligations.EstartStartsASession := fun _ hv =>
  ⟨_, exec_estart_of_codesValid hv, completes_finish .ok rfl rfl, rfl, rfl, rfl⟩

/-- Settles O27: the end of the session is all that the failure changes. -/
theorem esymOfAnAbsentSymbolAbandons : Obligations.EsymOfAnAbsentSymbolAbandons := fun _ _ ha hp =>
  ⟨_, exec_esym_of_absent ha hp, completes_finish .noSymbol rfl rfl, rfl, rfl, rfl⟩

end

section
/-! SUPPORT, then the obligations O31, O33, O35, O30 and O32. The decode stream: one rule for each outcome
that the statements speak of, the descent's bound in a tree of the shape of R125, and the message that
composes the DSYMs (45_decode.md R180 to R188). -/

namespace Sys2Proof.Machine

/-! ### DSTART -/

/-- DSTART with a valid tree (45_decode.md R180). -/
theorem exec_dstart_of_treeValid {s : State} (hv : s.treeValid = true) :
    exec .dstart s = complete
      { s.clearResults with resid := [], decRem := s.total, decActive := true, result0 := s.total } := by
  simp [exec, execDstart, hv]

/-! ### DSYM -/

/-- `s` after a DSYM has consumed `k` bits and emitted the symbol they lead to, before it completes
(45_decode.md R182). -/
def State.withDecoded (s : State) (k : Nat) (sym : Byte) : State :=
  { (s.clearResults.consumeBits k).emit sym with
    decRem := s.decRem - 1
    result0 := sym.setWidth 32
    result1 := BitVec.ofNat 32 k }

/-- Counting a symbol that is left does not wrap DEC_REM (45_decode.md R182). -/
theorem toNat_sub_one_add_one {c : Word} (h : c ≠ 0) : (c - 1).toNat + 1 = c.toNat := by bv_omega

/-- DSYM writes the read side, the OUT FIFO, DEC_REM and its results alone (45_decode.md R182). -/
theorem withDecoded_eq (s : State) (k : Nat) (sym : Byte) :
    s.withDecoded k sym =
      { s with
        resid := (s.clearResults.consumeBits k).resid, inq := (s.clearResults.consumeBits k).inq
        outq := s.outq ++ [sym], decRem := s.decRem - 1
        result0 := sym.setWidth 32, result1 := BitVec.ofNat 32 k } := by
  rw [State.withDecoded, consumeBits_frame]
  rfl

/-- DSYM where the available bits reach a leaf and the OUT FIFO has room (45_decode.md R182). -/
theorem exec_dsym_of_leaf {s : State} {r n : NodeId} {k : Nat} {sym : Byte} (ha : s.decActive = true)
    (hrem : s.decRem ≠ 0) (hroot : s.root = some r)
    (hleaf : descend s.node r s.avail = some (k, n, sym)) (room : s.outq.length < s.outDepth) :
    exec .dsym s = .next ((s.withDecoded k sym).finish .ok) := by
  simp only [exec, execDsym, ha, hrem, hroot, hleaf, room, complete, State.withDecoded, Bool.true_eq_false,
    if_true, if_false]

/-- DSYM where the input ends in the middle of a symbol: the read side is emptied and the session ends
before the failure is reported (45_decode.md R185). -/
theorem exec_dsym_of_short {s : State} {r : NodeId} (ha : s.decActive = true) (hrem : s.decRem ≠ 0)
    (hroot : s.root = some r) (hshort : descend s.node r s.avail = none) (heos : s.inEos = true) :
    exec .dsym s = reject .truncated { s with resid := [], inq := [], decActive := false } := by
  simp only [exec, execDsym, ha, hrem, hroot, hshort, heos, Bool.true_eq_false, if_true, if_false]

/-- DSYM after the last symbol looks at neither the tree nor the input (45_decode.md R186). -/
theorem exec_dsym_of_rem_zero {s : State} (ha : s.decActive = true) (hrem : s.decRem = 0) :
    exec .dsym s = reject .decDone { s with decActive := false } := by
  simp [exec, execDsym, ha, hrem]

/-! ### The bound of the descent -/

theorem TreeShape.descend_of_lt {node : Arena} {n : Nat} {root : Option NodeId}
    (h : TreeShape node n root) {i : NodeId} (hi : i.val < n) (bits : BitString) :
    descend node i bits = some (0, i, node[i].symbol) := by
  obtain ⟨f, hnode, -⟩ := h.leaf_of_lt hi
  exact descend_at_leaf hnode bits

/-- In a tree of the shape of R125 each bit leads to a node of a lower id, so from node `i` the
`i + 1 − N` bits that reach below N are enough (45_decode.md R187). -/
theorem TreeShape.exists_descend {node : Arena} {n : Nat} {root : Option NodeId}
    (h : TreeShape node n root) {i : NodeId} (hi : i.val < 2 * n - 1) {bits : BitString}
    (hbits : i.val + 1 - n ≤ bits.length) :
    ∃ k leaf sym, descend node i bits = some (k, leaf, sym) ∧ k ≤ i.val + 1 - n ∧ leaf.val < n := by
  induction bits generalizing i with
  | nil =>
    rw [List.length_nil] at hbits
    exact ⟨0, i, _, h.descend_of_lt (by omega) [], Nat.zero_le _, by omega⟩
  | cons x rest ih =>
    by_cases hlt : i.val < n
    · exact ⟨0, i, _, h.descend_of_lt hlt _, Nat.zero_le _, hlt⟩
    · obtain ⟨f, left, right, hnode, hleft, hright, -⟩ := h.internal_of_ge (not_lt.1 hlt) hi
      have hchild : (if x then right else left).val < i.val := by cases x <;> assumption
      rw [List.length_cons] at hbits
      obtain ⟨k, leaf, sym, hd, hk, hleaf⟩ := ih (i := if x then right else left) (by omega) (by omega)
      exact ⟨k + 1, leaf, sym, by simp [descend, hnode, hd], by omega, hleaf⟩

/-! ### Runs of DSYMs -/

/-- Nothing but the completion fields, the read side, the IN FIFO, the OUT FIFO and DEC_REM differs: the
frame of DSYM in a session (45_decode.md R182). -/
def OnlyDecodeChanged (s t : State) : Prop :=
  t = { s.withCompletionOf t with resid := t.resid, inq := t.inq, outq := t.outq, decRem := t.decRem }

theorem OnlyDecodeChanged.refl (s : State) : OnlyDecodeChanged s s := rfl

theorem OnlyDecodeChanged.trans {s t u : State} (hst : OnlyDecodeChanged s t)
    (htu : OnlyDecodeChanged t u) : OnlyDecodeChanged s u :=
  have hu := congrArg
    (fun x : State =>
      ({ x.withCompletionOf u with
          resid := u.resid, inq := u.inq, outq := u.outq, decRem := u.decRem } : State)) hst
  Eq.trans htu hu

theorem OnlyDecodeChanged.decActive {s t : State} (h : OnlyDecodeChanged s t) :
    t.decActive = s.decActive := (congrArg State.decActive h :)

theorem OnlyDecodeChanged.outDepth {s t : State} (h : OnlyDecodeChanged s t) :
    t.outDepth = s.outDepth := (congrArg State.outDepth h :)

/-- Decoding leaves the tree, so codes that lead to its leaves still do. -/
theorem OnlyDecodeChanged.codesDescend {s t : State} (h : OnlyDecodeChanged s t)
    {code : Vector CodeEntry 256} (hc : CodesDescend code s) : CodesDescend code t := by
  rw [h]
  exact hc

end Sys2Proof.Machine

open Sys2Proof Sys2Proof.Machine

/-- Settles O31: the leaf is reached within the available bits, so NextBit finds each bit it consumes. -/
theorem dsymDecodesOneSymbol : Obligations.DsymDecodesOneSymbol := by
  intro s r n k sym ha hrem hroot hleaf room
  obtain ⟨-, hk⟩ := descend_leaf hleaf
  have havail := consumeBits_avail k s.clearResults hk
  have hinq := consumeBits_inq k s.clearResults hk
  refine ⟨_, exec_dsym_of_leaf ha hrem hroot hleaf room, ?_⟩
  rw [withDecoded_eq]
  exact ⟨completes_finish .ok rfl rfl, havail, hinq, rfl, toNat_sub_one_add_one hrem,
    BitVec.toNat_setWidth_of_le (by decide), rfl, rfl⟩

/-- Settles O33: the root of a tree with N leaves is node 2N−2. -/
theorem descendReachesALeaf : Obligations.DescendReachesALeaf := by
  intro node n r bits h hbits
  obtain ⟨hn, hr⟩ := h.root_val
  have hbound : r.val + 1 - n = n - 1 := by omega
  rw [← hbound] at hbits ⊢
  exact h.exists_descend (by omega) hbits

/-- Settles O35, by induction on the message: each DSYM descends along its symbol's code and leaves a
session whose input begins with the codes of the rest. -/
theorem decodedMessageIsTheOriginal : Obligations.DecodedMessageIsTheOriginal := by
  intro code m rest
  induction m with
  | nil =>
    intro s _ _ _ havail _ _
    exact ⟨s, rfl, (List.append_nil _).symm, havail, rfl, .refl s⟩
  | cons sym m ih =>
    intro s hcodes ha hpresent havail hrem room
    obtain ⟨hsym, hm⟩ := List.forall_mem_cons.1 hpresent
    obtain ⟨p, hp⟩ := CodeEntry.exists_present_of_ne_absent hsym
    rw [bodyBits_cons_of_present hp, List.append_assoc] at havail
    rw [List.length_cons] at hrem room
    obtain ⟨r, n, hroot, hleaf⟩ := hcodes sym p hp (bodyBits code m ++ rest)
    rw [← havail] at hleaf
    have hne : s.decRem ≠ 0 := by
      intro h
      simp [h] at hrem
    obtain ⟨u, hu, -, huavail, -, houtq, hurem, -, -, hframe⟩ :=
      dsymDecodesOneSymbol s r n p.length sym ha hne hroot hleaf (by omega)
    replace hframe : OnlyDecodeChanged s u := hframe
    rw [havail, List.drop_left] at huavail
    have huroom : u.outq.length + m.length ≤ u.outDepth := by
      rw [houtq, hframe.outDepth, List.length_append, List.length_singleton]
      omega
    obtain ⟨t, ht, htoutq, htavail, htrem, htframe⟩ :=
      ih u (hframe.codesDescend hcodes) (hframe.decActive.trans ha) hm huavail (by omega) huroom
    refine ⟨t, (execAll_cons_of_next hu _).trans ht, ?_, htavail, ?_, hframe.trans htframe⟩
    · rw [htoutq, houtq, List.append_assoc]
      rfl
    · rw [List.length_cons]
      omega

/-- Settles O30: with a valid tree DSTART has one outcome. -/
theorem dstartLoadsTotal : Obligations.DstartLoadsTotal := fun _ hv =>
  ⟨_, exec_dstart_of_treeValid hv, completes_finish .ok rfl rfl, rfl, rfl, rfl⟩

/-- Settles O32, one clause for each way a session ends. -/
theorem dsymEndsTheSession : Obligations.DsymEndsTheSession := fun _ ha =>
  ⟨fun _ hrem hroot hshort heos =>
    ⟨_, exec_dsym_of_short ha hrem hroot hshort heos, completes_finish .truncated rfl rfl, rfl, rfl, rfl⟩,
   fun hrem => ⟨_, exec_dsym_of_rem_zero ha hrem, completes_finish .decDone rfl rfl, rfl, rfl, rfl⟩⟩

end

section
/-! SUPPORT, then the obligations O38, O1, O2, O3 and O53. The sequencer: which states hold a command and
what it answers there, and the command or the illegal word that its turn runs (46_system.md R195 to R200). -/

namespace Sys2Proof.Machine

/-! ### When a command holds: the table of 46_system.md R198 in the terms of the commands' rules -/

theorem holds_bpush_iff {n : Nat} {arg : Word} {s : State} :
    holds (.bpush n arg) s = true ↔ n ≤ 32 ∧ s.outRoom (s.pushCount n) = false := by
  simp [holds, lacksRoom_eq_not_outRoom, State.pushCount]

theorem holds_bget_iff {s : State} : holds .bget s = true ↔ s.avail = [] ∧ s.inEos = false := by
  simp [holds, avail_eq_nil]

theorem holds_esym_iff {sym : Byte} {s : State} :
    holds (.esym sym) s = true ↔ s.encActive = true ∧
      ∃ p, symEntry s.code sym = .present p ∧ s.outRoom (s.pushCount p.length) = false := by
  cases he : symEntry s.code sym with
  | absent => simp [holds, he]
  | present p => simp [holds, he, lacksRoom_eq_not_outRoom, State.pushCount]

theorem holds_eflush_iff {s : State} :
    holds .eflush s = true ↔ 0 < s.pend.length ∧ s.outRoom 1 = false := by
  simp [holds, lacksRoom_eq_not_outRoom]

theorem lacksRoom_one_iff {s : State} : lacksRoom s 1 = true ↔ ¬ s.outq.length < s.outDepth := by
  rw [lacksRoom, decide_eq_true_eq]
  omega

theorem reachesLeaf_of_root {s : State} {r : NodeId} (h : s.root = some r) :
    reachesLeaf s = (descend s.node r s.avail).isSome := by
  simp only [reachesLeaf, h]

/-- DSYM waits for input where the descent falls short, and for room where it reaches a leaf. -/
theorem holds_dsym_iff {s : State} :
    holds .dsym s = true ↔ s.decActive = true ∧ s.decRem ≠ 0 ∧ ∃ r, s.root = some r ∧
      ((descend s.node r s.avail = none ∧ s.inEos = false) ∨
        ∃ k n sym, descend s.node r s.avail = some (k, n, sym) ∧ ¬ s.outq.length < s.outDepth) := by
  cases hroot : s.root with
  | none => simp [holds, hroot]
  | some r =>
    have hreach := reachesLeaf_of_root hroot
    cases hleaf : descend s.node r s.avail with
    | none => simp [holds, hroot, hreach, hleaf, and_assoc]
    | some leaf =>
      obtain ⟨k, n, sym⟩ := leaf
      simp [holds, hroot, hreach, hleaf, and_assoc, lacksRoom_one_iff]

/-! ### What a held command answers -/

/-- BPUSH waits for room for its bytes (43_bit_buffer.md R151, R157). -/
theorem exec_bpush_of_noRoom {n : Nat} {arg : Word} {s : State} (hn : n ≤ 32)
    (room : s.outRoom (s.pushCount n) = false) : exec (.bpush n arg) s = hold s := by
  simp [exec, execBpush, not_lt.2 hn, room]

/-- BGET waits for a bit that may still come (43_bit_buffer.md R154, R158). -/
theorem exec_bget_of_wait {s : State} (ha : s.avail = []) (heos : s.inEos = false) :
    exec .bget s = hold s := by
  have hwait : s.clearResults.nextBit = .wait := by
    rw [nextBit_none (s := s.clearResults) ha]
    simp [heos]
  simp only [exec, execBget, hwait]

/-- ESYM waits for room for the bytes of the code (44_encode.md R166). -/
theorem exec_esym_of_noRoom {sym : Byte} {p : BitString} {s : State} (ha : s.encActive = true)
    (hp : symEntry s.code sym = .present p) (room : s.outRoom (s.pushCount p.length) = false) :
    exec (.esym sym) s = hold s := by
  simp [exec, execEsym, ha, hp, room]

/-- EFLUSH waits for room only where it has a byte to emit (44_encode.md R169). -/
theorem exec_eflush_of_noRoom {s : State} (hpend : 0 < s.pend.length) (room : s.outRoom 1 = false) :
    exec .eflush s = hold s := by
  simp [exec, execEflush, hpend, room]

/-- DSYM waits for the rest of a symbol (45_decode.md R182). -/
theorem exec_dsym_of_wait {s : State} {r : NodeId} (ha : s.decActive = true) (hrem : s.decRem ≠ 0)
    (hroot : s.root = some r) (hshort : descend s.node r s.avail = none) (heos : s.inEos = false) :
    exec .dsym s = hold s := by
  simp only [exec, execDsym, ha, hrem, hroot, hshort, heos, Bool.true_eq_false, Bool.false_eq_true,
    if_false]

/-- DSYM waits for room for the symbol it has reached (45_decode.md R182). -/
theorem exec_dsym_of_noRoom {s : State} {r n : NodeId} {k : Nat} {sym : Byte} (ha : s.decActive = true)
    (hrem : s.decRem ≠ 0) (hroot : s.root = some r)
    (hleaf : descend s.node r s.avail = some (k, n, sym)) (room : ¬ s.outq.length < s.outDepth) :
    exec .dsym s = hold s := by
  simp only [exec, execDsym, ha, hrem, hroot, hleaf, room, Bool.true_eq_false, if_false]

/-! ### What the sequencer's turn runs -/

/-- A word whose OP is outside the table decodes to no command (30_encoding.md R98, R99). -/
theorem decode_of_notMem_definedOps {word : Word} (h : (opField word).toNat ∉ definedOps) (arg : Word) :
    decode word arg = .error (.illegalOpcode (opField word)) := by
  unfold decode
  split
  case h_19 => rfl
  all_goals
    rename_i hop
    exact absurd (by rw [hop]; decide) h

theorem sequencerTurn_of_pending {s : State} {c : Command} (hr : s.rst = false)
    (hp : s.pending = some c) : sequencerTurn s = execCommand c s := by
  simp [sequencerTurn, hr, hp]

theorem execCommand_of_decode {c : Command} {i : Instr} (h : decode c.word c.arg = .ok i) (s : State) :
    execCommand c s = exec i s := by
  simp only [execCommand, h]

theorem execCommand_of_illegal {c : Command} (h : (opField c.word).toNat ∉ definedOps) (s : State) :
    execCommand c s = reject .illegal s := by
  simp only [execCommand, decode_of_notMem_definedOps h, execIllegal]

/-- With a command pending the sequencer's turn runs the command that its word decodes to
(46_system.md R195). -/
theorem sequencerTurn_of_decode {s : State} {c : Command} {i : Instr} (hr : s.rst = false)
    (hp : s.pending = some c) (h : decode c.word c.arg = .ok i) : sequencerTurn s = exec i s :=
  (sequencerTurn_of_pending hr hp).trans (execCommand_of_decode h s)

theorem step_of_schedule_nil {s : State} (h : s.schedule = []) : step s = sequencerTurn s := by
  simp only [step, h]

theorem step_of_schedule_sequencer {s : State} {rest : List Turn} (h : s.schedule = .sequencer :: rest) :
    step s = sequencerTurn { s with schedule := rest } := by
  simp only [step, h, takeTurn]

/-! ### SRESET -/

theorem currentWord_of_pending {s : State} {c : Command} (h : s.pending = some c) :
    s.currentWord = c.word := by
  simp only [State.currentWord, h]

/-- CMD and STATUS.DONE are no part of the reset values: a completion with OK keeps the others
(46_system.md R197, R199). -/
theorem ResetValues.finish_ok {s : State} (h : ResetValues s) (cmd : Word) :
    ResetValues ({ s with cmd := cmd }.finish .ok) where
  ctrl := h.ctrl
  sticky := by simpa [errAfter] using h.sticky
  valid := h.valid
  sessions := h.sessions
  codes := by simpa [firstErrAfter] using h.codes.2
  operands := h.operands
  counts := h.counts
  latch := rfl
  table := h.table
  root := h.root
  bits := h.bits
  fifos := h.fifos

/-- Where all else has its reset value, DONE is the one bit of STATUS that is set (10_state.md R35,
R61). -/
theorem ResetValues.statusWord_of_done {t : State} (h : ResetValues t) (hdone : t.done = true) :
    t.statusWord = 0x00000002 := by
  obtain ⟨herr, hcmdOvr, hinOvr⟩ := h.sticky
  obtain ⟨htree, hcodes, hempty, hsingle⟩ := h.valid
  obtain ⟨henc, hdec⟩ := h.sessions
  obtain ⟨hcc, hfirst⟩ := h.codes
  obtain ⟨hpend, hresid⟩ := h.bits
  simp only [State.statusWord, State.busy, h.latch, hdone, herr, hcmdOvr, hinOvr, htree, hcodes, hempty,
    hsingle, henc, hdec, hcc, hfirst, hpend, hresid]
  decide

end Sys2Proof.Machine

open Sys2Proof Sys2Proof.Machine

/-- Settles O38: the hold table's conditions are those under which the command's own rule reaches its
hold line. -/
theorem heldCommandsChangeNothing : Obligations.HeldCommandsChangeNothing := by
  intro i s h
  rw [← hold_next]
  cases i with
  | bpush n arg =>
    obtain ⟨hn, room⟩ := holds_bpush_iff.1 h
    exact exec_bpush_of_noRoom hn room
  | bget =>
    obtain ⟨ha, heos⟩ := holds_bget_iff.1 h
    exact exec_bget_of_wait ha heos
  | esym sym =>
    obtain ⟨ha, p, hp, room⟩ := holds_esym_iff.1 h
    exact exec_esym_of_noRoom ha hp room
  | eflush =>
    obtain ⟨hpend, room⟩ := holds_eflush_iff.1 h
    exact exec_eflush_of_noRoom hpend room
  | dsym =>
    obtain ⟨ha, hrem, r, hroot, ⟨hshort, heos⟩ | ⟨k, n, sym, hleaf, room⟩⟩ := holds_dsym_iff.1 h
    · exact exec_dsym_of_wait ha hrem hroot hshort heos
    · exact exec_dsym_of_noRoom ha hrem hroot hleaf room
  | _ => exact absurd h Bool.false_ne_true

/-- Settles O1: NOP only completes. -/
theorem nopOnlyCompletes : Obligations.NopOnlyCompletes := fun s =>
  ⟨_, rfl, completes_finish .ok rfl rfl, rfl, rfl, finish_clearResults_frame .ok s⟩

/-- Settles O2: the reset values are still there once SRESET has put its word in CMD and completed. -/
theorem sresetRestoresResetValues : Obligations.SresetRestoresResetValues := by
  intro s c hp
  have hreset := (resetValues_resetAll s).finish_ok s.currentWord
  exact ⟨_, rfl, hreset, rfl, currentWord_of_pending hp, hreset.statusWord_of_done rfl, rfl, rfl, rfl, rfl,
    rfl⟩

/-- Settles O3: the word decodes to no command, and its turn is a failure with no session effect. -/
theorem illegalCommandsReportIllegal : Obligations.IllegalCommandsReportIllegal := fun s _ hr hp hop =>
  ⟨_, (sequencerTurn_of_pending hr hp).trans (execCommand_of_illegal hop s),
    completes_finish .illegal rfl rfl, rfl, rfl, finish_clearResults_frame .illegal s⟩

/-- Settles O53, one clause for each way the turn comes to the sequencer. -/
theorem stepRunsTheDecodedCommand : Obligations.StepRunsTheDecodedCommand := fun _ _ _ hr hp hdec =>
  ⟨fun hs => (step_of_schedule_nil hs).trans (sequencerTurn_of_decode hr hp hdec),
   fun _ hs => (step_of_schedule_sequencer hs).trans (sequencerTurn_of_decode hr hp hdec)⟩

end

section
/-! SUPPORT, then the obligations O36, O37, O39, O60 and O47. Completion and errors over all commands: the
ways a command ends, with the code of the table of causes, what a failure leaves as it was, and the
interrupt line (60_exceptions.md R210 to R220). -/

namespace Sys2Proof.Machine

/-! ### What a failure writes before it completes -/

/-- What a failing command makes of `s`, by its code, before `finish`: its results and the session and tree
effects of 60_exceptions.md R215. Only FREQ_OVF reports in RESULT0 (40_frequency.md R113). -/
inductive FailureMakes (i : Instr) (s : State) : CompletionCode → State → Prop where
  | resultsOnly {cc : CompletionCode} : FailureMakes i s cc s.clearResults
  | freqOvf (count : Word) : FailureMakes i s .freqOvf { s.clearResults with result0 := count }
  | totalOvf : FailureMakes i s .totalOvf s.invalidateTree.clearResults
  | noSymbol : FailureMakes i s .noSymbol { s with encActive := false }.clearResults
  | decDone (dsym : i = .dsym) : FailureMakes i s .decDone { s with decActive := false }.clearResults
  | truncated (dsym : i = .dsym) :
      FailureMakes i s .truncated { s with resid := [], inq := [], decActive := false }.clearResults

section
variable {i : Instr} {s u : State} {cc : CompletionCode}

/-- No failure writes the tables, the write side, the OUT FIFO, CMD, ARG, CTRL or the overrun flags. -/
theorem FailureMakes.frame (m : FailureMakes i s cc u) :
    u = { s with
      result0 := u.result0, result1 := 0, resid := u.resid, inq := u.inq, treeValid := u.treeValid
      codesValid := u.codesValid, treeEmpty := u.treeEmpty, treeSingle := u.treeSingle
      total := u.total, decRem := u.decRem, nleaf := u.nleaf, root := u.root
      encActive := u.encActive, decActive := u.decActive } := by
  cases m <;> rfl

theorem FailureMakes.completes (m : FailureMakes i s cc u) : Completes cc s (u.finish cc) := by
  rw [m.frame]
  exact completes_finish cc rfl rfl

theorem FailureMakes.result0 (m : FailureMakes i s cc u) (h : cc ≠ .freqOvf) : u.result0 = 0 := by
  cases m with
  | freqOvf count => exact absurd rfl h
  | _ => rfl

theorem FailureMakes.readSide (m : FailureMakes i s cc u) (h : ¬ (i = .dsym ∧ cc = .truncated)) :
    u.inq = s.inq ∧ u.resid = s.resid := by
  cases m with
  | truncated dsym => exact absurd ⟨dsym, rfl⟩ h
  | _ => exact ⟨rfl, rfl⟩

theorem FailureMakes.tree (m : FailureMakes i s cc u) (h : cc ≠ .totalOvf) :
    u.treeValid = s.treeValid ∧ u.codesValid = s.codesValid ∧ u.treeEmpty = s.treeEmpty
      ∧ u.treeSingle = s.treeSingle ∧ u.total = s.total ∧ u.decRem = s.decRem ∧ u.nleaf = s.nleaf
      ∧ u.root = s.root := by
  cases m with
  | totalOvf => exact absurd rfl h
  | _ => exact ⟨rfl, rfl, rfl, rfl, rfl, rfl, rfl, rfl⟩

theorem FailureMakes.encActive (m : FailureMakes i s cc u) (htotal : cc ≠ .totalOvf)
    (hsymbol : cc ≠ .noSymbol) : u.encActive = s.encActive := by
  cases m with
  | totalOvf => exact absurd rfl htotal
  | noSymbol => exact absurd rfl hsymbol
  | _ => rfl

theorem FailureMakes.decActive (m : FailureMakes i s cc u) (htotal : cc ≠ .totalOvf) (hi : i ≠ .dsym) :
    u.decActive = s.decActive := by
  cases m with
  | totalOvf => exact absurd rfl htotal
  | decDone dsym => exact absurd dsym hi
  | truncated dsym => exact absurd dsym hi
  | _ => rfl

end

/-! ### The broken trees (log 10) -/

/-- The states in which the spec gives a command no effect: DSYM with symbols left and no root, and LRD of an
entry in range that names no leaf (45_decode.md R181; 41_tree_builder.md R125; log 10). -/
inductive BrokenTree (s : State) : Instr → Prop where
  | noRoot (rem : s.decRem ≠ 0) (root : s.root = none) : BrokenTree s .dsym
  | noLeaf {j : Nat} (valid : s.codesValid = true) (inRange : j < s.nleaf.toNat)
      (internal : s.node[s.leafOrd[Fin.ofNat 256 j]].isLiveLeaf = false) : BrokenTree s (.lrd j)

theorem BrokenTree.dsym_or_lrd {s : State} {i : Instr} (b : BrokenTree s i) :
    i = .dsym ∨ ∃ j, i = .lrd j := by
  cases b with
  | noRoot => exact .inl rfl
  | noLeaf => exact .inr ⟨_, rfl⟩

/-- The invariants rule a broken tree out: with no root DEC_REM is at most TOTAL = 0, and the first N entries
of the leaf order table name leaves (10_state.md R44, R45, R54). -/
theorem not_brokenTree {s : State} (hr : RegisterInv s) (hl : LeafOrderInv s) (i : Instr) :
    ¬ BrokenTree s i := by
  intro b
  cases b with
  | noRoot rem root =>
    have htotal : s.total.toNat = 0 := congrArg BitVec.toNat (hr.no_root root)
    exact rem (BitVec.eq_of_toNat_eq (Nat.eq_zero_of_le_zero (htotal ▸ hr.rem)))
  | @noLeaf j valid inRange internal =>
    have hval : (Fin.ofNat 256 j).val = j := Nat.mod_eq_of_lt (lt_of_lt_of_le inRange hr.leaves)
    have hlive := (hl valid (Fin.ofNat 256 j) (by rwa [hval])).2
    exact Bool.false_ne_true (internal.symm.trans hlive)

/-! ### The failures that no rule above names -/

/-- FINC of a full entry reports it and leaves it (40_frequency.md R113). -/
theorem exec_finc_of_full {sym : Byte} {s : State} (h : (symEntry s.freq sym).toNat = 2 ^ 32 - 1) :
    exec (.finc sym) s = .next ({ s.clearResults with result0 := 0xFFFFFFFF }.finish .freqOvf) :=
  have hfull : symEntry s.freq sym = 0xFFFFFFFF := BitVec.eq_of_toNat_eq h
  if_pos hfull

theorem exec_genc_of_noTree {s : State} (h : s.treeValid = false) :
    exec .genc s = reject .notReady s := if_pos h

theorem exec_crd_of_noCodes {sym : Byte} {w : Nat} {s : State} (h : s.codesValid = false) :
    exec (.crd sym w) s = reject .notReady s := if_pos h

theorem exec_crd_of_range {sym : Byte} {w : Nat} {s : State} (hv : s.codesValid = true) (hw : 7 < w) :
    exec (.crd sym w) s = reject .range s := by
  simp [exec, execCrd, hv, hw]

theorem exec_lrd_of_noCodes {j : Nat} {s : State} (h : s.codesValid = false) :
    exec (.lrd j) s = reject .notReady s := if_pos h

theorem exec_lrd_of_range {j : Nat} {s : State} (hv : s.codesValid = true) (hj : s.nleaf.toNat ≤ j) :
    exec (.lrd j) s = reject .range s := by
  simp [exec, execLrd, hv, hj]

/-- LRD of an index below NLEAF, as the register gives it, where its entry names a leaf
(42_code_table.md R139). -/
theorem exec_lrd_of_leafEntry {j : Nat} {sym : Byte} {f : Word} {s : State} (hv : s.codesValid = true)
    (hj : j < s.nleaf.toNat) (h : s.node[s.leafOrd[Fin.ofNat 256 j]] = .leaf sym f) :
    exec (.lrd j) s = complete { s.clearResults with result0 := sym.setWidth 32, result1 := f } := by
  simp only [exec, execLrd, hv, not_le.2 hj, h, Bool.true_eq_false, if_false]

theorem exec_lrd_of_internalEntry {j : Nat} {f : Word} {left right : NodeId} {s : State}
    (hv : s.codesValid = true) (hj : j < s.nleaf.toNat)
    (h : s.node[s.leafOrd[Fin.ofNat 256 j]] = .internal f left right) :
    exec (.lrd j) s = .fault .brokenTree := by
  simp only [exec, execLrd, hv, not_le.2 hj, h, Bool.true_eq_false, if_false]

theorem exec_nrd_of_noTree {n : Nat} {s : State} (h : s.treeValid = false) :
    exec (.nrd n) s = reject .notReady s := if_pos h

theorem exec_nrd_of_range {n : Nat} {s : State} (hv : s.treeValid = true)
    (hn : s.nleaf.toNat = 0 ∨ 2 * s.nleaf.toNat - 2 < n) : exec (.nrd n) s = reject .range s := by
  simp only [exec, execNrd, hv, hn, Bool.true_eq_false, if_true, if_false]

/-- NRD of an index in range, whether or not it is a node id (41_tree_builder.md R127). -/
theorem exec_nrd_of_not_range {n : Nat} {s : State} (hv : s.treeValid = true)
    (hn : ¬ (s.nleaf.toNat = 0 ∨ 2 * s.nleaf.toNat - 2 < n)) :
    exec (.nrd n) s =
      complete
        { s.clearResults with
          result0 := nodeWord s.node[nodeIdOf n], result1 := s.node[nodeIdOf n].freq } := by
  simp only [exec, execNrd, hv, hn, Bool.true_eq_false, if_false]

theorem exec_estart_of_noCodes {s : State} (h : s.codesValid = false) :
    exec .estart s = reject .notReady s := if_pos h

theorem exec_esym_of_noSession {sym : Byte} {s : State} (h : s.encActive = false) :
    exec (.esym sym) s = reject .notReady s := if_pos h

theorem exec_bpush_of_range {n : Nat} {arg : Word} {s : State} (h : 32 < n) :
    exec (.bpush n arg) s = reject .range s := if_pos h

theorem exec_dstart_of_noTree {s : State} (h : s.treeValid = false) :
    exec .dstart s = reject .notReady s := if_pos h

theorem exec_dsym_of_noSession {s : State} (h : s.decActive = false) :
    exec .dsym s = reject .notReady s := if_pos h

theorem exec_dsym_of_noRoot {s : State} (ha : s.decActive = true) (hrem : s.decRem ≠ 0)
    (hroot : s.root = none) : exec .dsym s = .fault .brokenTree := by
  simp only [exec, execDsym, ha, hrem, hroot, Bool.true_eq_false, if_false]

/-- BGET at the end of the input (43_bit_buffer.md R154, R158). -/
theorem exec_bget_of_exhausted {s : State} (ha : s.avail = []) (heos : s.inEos = true) :
    exec .bget s = reject .truncated s := by
  have hend : s.clearResults.nextBit = .exhausted := by
    rw [nextBit_none (s := s.clearResults) ha]
    simp [heos]
  simp only [exec, execBget, hend]

/-! ### How a command ends -/

/-- How a command ends: it holds, completes with OK or a failure's code, each as the table of causes says, or
meets a broken tree. SRESET's completion resets ERR and FIRST_ERR too (46_system.md R197 to R199;
60_exceptions.md R212). -/
inductive CommandEnds (i : Instr) (s : State) : Prop where
  | held (h : holds i s = true)
  | ok {t : State} (e : exec i s = .next t) (code : completionCode i s = .ok)
      (h : i ≠ .sreset → Completes .ok s t)
  | failed {cc : CompletionCode} {u : State} (e : exec i s = .next (u.finish cc))
      (code : completionCode i s = cc) (m : FailureMakes i s cc u)
  | broken (e : exec i s = .fault .brokenTree) (b : BrokenTree s i)

/-- A completion with OK from any state with ERR and FIRST_ERR as before the command. -/
theorem CommandEnds.of_complete {i : Instr} {s u : State} (e : exec i s = complete u)
    (code : completionCode i s = .ok) (herr : u.err = s.err) (hfirst : u.firstErr = s.firstErr) :
    CommandEnds i s :=
  .ok e code fun _ => completes_finish .ok herr hfirst

/-- A failure with no session effect. -/
theorem CommandEnds.of_reject {i : Instr} {s : State} {cc : CompletionCode} (e : exec i s = reject cc s)
    (code : completionCode i s = cc) : CommandEnds i s :=
  .failed e code .resultsOnly

theorem finc_ends (sym : Byte) (s : State) : CommandEnds (.finc sym) s := by
  by_cases h : (symEntry s.freq sym).toNat = 2 ^ 32 - 1
  · exact .failed (exec_finc_of_full h) (if_pos h) (.freqOvf _)
  · have hlt : (symEntry s.freq sym).toNat < 2 ^ 32 - 1 := by omega
    obtain ⟨t, e, hc, -⟩ := exec_finc_of_lt hlt
    exact .ok e (if_neg h) fun _ => hc

theorem build_ends (s : State) : CommandEnds .build s := by
  by_cases h : 2 ^ 32 - 1 < freqTotal s.freq
  · exact .failed (exec_build_of_overflow h) (by simp only [completionCode, if_pos h]) .totalOvf
  · exact .of_complete (exec_build_of_fits (not_lt.1 h)) (by simp only [completionCode, if_neg h]) rfl rfl

theorem genc_ends (s : State) : CommandEnds .genc s := by
  cases hv : s.treeValid with
  | false => exact .of_reject (exec_genc_of_noTree hv) (by simp [completionCode, hv])
  | true => exact .of_complete (exec_genc_eq hv) (by simp [completionCode, hv]) rfl rfl

theorem crd_ends (sym : Byte) (w : Nat) (s : State) : CommandEnds (.crd sym w) s := by
  cases hv : s.codesValid with
  | false => exact .of_reject (exec_crd_of_noCodes hv) (by simp [completionCode, hv])
  | true =>
    by_cases hw : 7 < w
    · exact .of_reject (exec_crd_of_range hv hw) (by simp [completionCode, hv, hw])
    have code : completionCode (.crd sym w) s = .ok := by simp [completionCode, hv, hw]
    cases hp : symEntry s.code sym with
    | absent => exact .of_complete (exec_crd_of_absent hv (not_lt.1 hw) hp) code rfl rfl
    | present p => exact .of_complete (exec_crd_of_present hv (not_lt.1 hw) hp) code rfl rfl

theorem lrd_ends (j : Nat) (s : State) : CommandEnds (.lrd j) s := by
  cases hv : s.codesValid with
  | false => exact .of_reject (exec_lrd_of_noCodes hv) (by simp [completionCode, hv])
  | true =>
    by_cases hj : s.nleaf.toNat ≤ j
    · exact .of_reject (exec_lrd_of_range hv hj) (by simp [completionCode, hv, hj])
    have hlt := not_le.1 hj
    cases hn : s.node[s.leafOrd[Fin.ofNat 256 j]] with
    | leaf sym f =>
      exact .of_complete (exec_lrd_of_leafEntry hv hlt hn) (by simp [completionCode, hv, hj]) rfl rfl
    | internal f left right =>
      exact .broken (exec_lrd_of_internalEntry hv hlt hn) (.noLeaf hv hlt (by rw [hn]; rfl))

theorem nrd_ends (n : Nat) (s : State) : CommandEnds (.nrd n) s := by
  cases hv : s.treeValid with
  | false => exact .of_reject (exec_nrd_of_noTree hv) (by simp [completionCode, hv])
  | true =>
    by_cases hn : s.nleaf.toNat = 0 ∨ 2 * s.nleaf.toNat - 2 < n
    · exact .of_reject (exec_nrd_of_range hv hn) (by simp only [completionCode, hv, hn]; rfl)
    · exact .of_complete (exec_nrd_of_not_range hv hn) (by simp only [completionCode, hv, hn]; rfl) rfl rfl

theorem estart_ends (s : State) : CommandEnds .estart s := by
  cases hv : s.codesValid with
  | false => exact .of_reject (exec_estart_of_noCodes hv) (by simp [completionCode, hv])
  | true => exact .of_complete (exec_estart_of_codesValid hv) (by simp [completionCode, hv]) rfl rfl

theorem esym_ends (sym : Byte) (s : State) : CommandEnds (.esym sym) s := by
  cases ha : s.encActive with
  | false => exact .of_reject (exec_esym_of_noSession ha) (by simp [completionCode, ha])
  | true =>
    cases hp : symEntry s.code sym with
    | absent => exact .failed (exec_esym_of_absent ha hp) (by simp [completionCode, ha, hp]) .noSymbol
    | present p =>
      cases room : s.outRoom (s.pushCount p.length) with
      | false => exact .held (holds_esym_iff.2 ⟨ha, p, hp, room⟩)
      | true =>
        exact .ok (exec_esym_of_room ha hp (of_decide_eq_true room)) (by simp [completionCode, ha, hp])
          fun _ => completes_withPushed s p

theorem eflush_ends (s : State) : CommandEnds .eflush s := by
  by_cases hpend : s.pend = []
  · exact .of_complete (exec_eflush_of_nil hpend) rfl rfl rfl
  · cases room : s.outRoom 1 with
    | false => exact .held (holds_eflush_iff.2 ⟨List.length_pos_iff.2 hpend, room⟩)
    | true => exact .of_complete (exec_eflush_of_pending hpend (of_decide_eq_true room)) rfl rfl rfl

theorem bpush_ends (n : Nat) (arg : Word) (s : State) : CommandEnds (.bpush n arg) s := by
  by_cases hn : 32 < n
  · exact .of_reject (exec_bpush_of_range hn) (if_pos hn)
  · cases room : s.outRoom (s.pushCount n) with
    | false => exact .held (holds_bpush_iff.2 ⟨not_lt.1 hn, room⟩)
    | true =>
      exact .ok (exec_bpush_of_room (not_lt.1 hn) (of_decide_eq_true room)) (if_neg hn)
        fun _ => completes_withPushed s _

theorem dstart_ends (s : State) : CommandEnds .dstart s := by
  cases hv : s.treeValid with
  | false => exact .of_reject (exec_dstart_of_noTree hv) (by simp [completionCode, hv])
  | true => exact .of_complete (exec_dstart_of_treeValid hv) (by simp [completionCode, hv]) rfl rfl

theorem dsym_ends (s : State) : CommandEnds .dsym s := by
  cases ha : s.decActive with
  | false => exact .of_reject (exec_dsym_of_noSession ha) (by simp [completionCode, ha])
  | true =>
    by_cases hrem : s.decRem = 0
    · exact .failed (exec_dsym_of_rem_zero ha hrem) (by simp [completionCode, ha, hrem]) (.decDone rfl)
    cases hroot : s.root with
    | none => exact .broken (exec_dsym_of_noRoot ha hrem hroot) (.noRoot hrem hroot)
    | some r =>
      have hreach := reachesLeaf_of_root hroot
      cases hleaf : descend s.node r s.avail with
      | none =>
        cases heos : s.inEos with
        | false => exact .held (holds_dsym_iff.2 ⟨ha, hrem, r, hroot, .inl ⟨hleaf, heos⟩⟩)
        | true =>
          exact .failed (exec_dsym_of_short ha hrem hroot hleaf heos)
            (by simp only [completionCode, ha, hrem, hreach, hleaf, heos]; rfl) (.truncated rfl)
      | some leaf =>
        obtain ⟨k, n, sym⟩ := leaf
        by_cases room : s.outq.length < s.outDepth
        · obtain ⟨t, e, hc, -⟩ := dsymDecodesOneSymbol s r n k sym ha hrem hroot hleaf room
          exact .ok e (by simp only [completionCode, ha, hrem, hreach, hleaf]; rfl) fun _ => hc
        · exact .held (holds_dsym_iff.2 ⟨ha, hrem, r, hroot, .inr ⟨k, n, sym, hleaf, room⟩⟩)

theorem bget_ends (s : State) : CommandEnds .bget s := by
  cases ha : s.avail with
  | nil =>
    cases heos : s.inEos with
    | false => exact .held (holds_bget_iff.2 ⟨ha, heos⟩)
    | true =>
      obtain ⟨hresid, hinq⟩ := avail_eq_nil.1 ha
      exact .of_reject (exec_bget_of_exhausted ha heos) (if_pos ⟨hresid, hinq, heos⟩)
  | cons x rest =>
    obtain ⟨t, e, hc, -⟩ := bgetReadsOneBit s x rest ha
    have hsome : s.avail ≠ [] := ha ▸ List.cons_ne_nil x rest
    exact .ok e (if_neg fun ⟨hresid, hinq, _⟩ => hsome (avail_eq_nil.2 ⟨hresid, hinq⟩)) fun _ => hc

/-- Every command ends in one of these ways (46_system.md R195). -/
theorem exec_ends (i : Instr) (s : State) : CommandEnds i s := by
  cases i with
  | nop => exact .of_complete rfl rfl rfl rfl
  | sreset => exact .ok rfl rfl (absurd rfl)
  | fclr => exact .of_complete rfl rfl rfl rfl
  | fwr sym arg => exact .of_complete rfl rfl rfl rfl
  | frd sym => exact .of_complete rfl rfl rfl rfl
  | finc sym => exact finc_ends sym s
  | build => exact build_ends s
  | genc => exact genc_ends s
  | crd sym w => exact crd_ends sym w s
  | lrd j => exact lrd_ends j s
  | nrd n => exact nrd_ends n s
  | estart => exact estart_ends s
  | esym sym => exact esym_ends sym s
  | eflush => exact eflush_ends s
  | bpush n arg => exact bpush_ends n arg s
  | dstart => exact dstart_ends s
  | dsym => exact dsym_ends s
  | bget => exact bget_ends s

/-- A command answers a next state unless it meets a broken tree. -/
theorem exec_next_or_broken (i : Instr) (s : State) :
    (∃ t, exec i s = .next t) ∨ (exec i s = .fault .brokenTree ∧ BrokenTree s i) := by
  cases exec_ends i s with
  | held h => exact .inl ⟨s, heldCommandsChangeNothing i s h⟩
  | ok e => exact .inl ⟨_, e⟩
  | failed e => exact .inl ⟨_, e⟩
  | broken e b => exact .inr ⟨e, b⟩

/-- A command that is not held and fails answers what its failure makes, completed with its code. -/
theorem failureMakes_of_exec {i : Instr} {s t : State} (hh : holds i s = false) (e : exec i s = .next t)
    (hcc : completionCode i s ≠ .ok) :
    ∃ u, FailureMakes i s (completionCode i s) u ∧ t = u.finish (completionCode i s) := by
  cases exec_ends i s with
  | held h => exact absurd (hh.symm.trans h) Bool.false_ne_true
  | ok _ code => exact absurd code hcc
  | failed e' code m => exact code ▸ ⟨_, m, Host.Outcome.next.inj (e.symm.trans e')⟩
  | broken e' => exact nomatch e.symm.trans e'

/-! ### No step faults -/

theorem exists_sequencerTurn_eq_next {s : State} (hr : RegisterInv s) (hl : LeafOrderInv s) :
    ∃ t, sequencerTurn s = .next t := by
  unfold sequencerTurn
  split
  · exact ⟨s, rfl⟩
  split
  · exact ⟨s, rfl⟩
  unfold execCommand
  split
  · exact (exec_next_or_broken _ s).resolve_right fun h => not_brokenTree hr hl _ h.2
  · exact ⟨_, rfl⟩

theorem step_of_schedule_resetInput {s : State} {asserted : Bool} {rest : List Turn}
    (h : s.schedule = .resetInput asserted :: rest) :
    step s = .next (resetTurn asserted { s with schedule := rest }) := by
  simp only [step, h, takeTurn]

/-! ### The sticky flags in the STATUS word -/

/-- DONE, ERR, CMD_OVR and IN_OVR as the host reads them, whatever the bit buffer holds (10_state.md R35). -/
theorem getLsbD_statusWord (s : State) :
    s.statusWord.getLsbD 1 = s.done ∧ s.statusWord.getLsbD 2 = s.err
      ∧ s.statusWord.getLsbD 3 = s.cmdOvr ∧ s.statusWord.getLsbD 4 = s.inOvr := by
  refine ⟨?_, ?_, ?_, ?_⟩
  all_goals
    rw [State.statusWord]
    repeat rw [BitVec.getLsbD_append]
    simp [flag]

end Sys2Proof.Machine

open Sys2Proof Sys2Proof.Machine

/-- Settles O36: the way a command ends carries its code. -/
theorem completionCodesFollowTheTable : Obligations.CompletionCodesFollowTheTable := by
  intro i s t hi hh e
  cases exec_ends i s with
  | held h => exact absurd (hh.symm.trans h) Bool.false_ne_true
  | ok e' code h =>
    obtain rfl := Host.Outcome.next.inj (e.symm.trans e')
    exact code ▸ h hi
  | failed e' code m =>
    obtain rfl := Host.Outcome.next.inj (e.symm.trans e')
    exact code ▸ m.completes
  | broken e' => exact nomatch e.symm.trans e'

/-- Settles O37: what no failure writes, then what only some of them write. -/
theorem failedCommandsKeepTheTables : Obligations.FailedCommandsKeepTheTables := by
  intro i s t hh e hcc
  obtain ⟨u, m, rfl⟩ := failureMakes_of_exec hh e hcc
  rw [m.frame]
  exact ⟨rfl, rfl, rfl, rfl, rfl, rfl, rfl, rfl, rfl, rfl, rfl, rfl, m.result0, m.readSide, m.tree,
    m.encActive, m.decActive⟩

/-- Settles O39: no way a command ends is a refusal, and only a broken tree is a fault. -/
theorem onlyABrokenTreeStopsACommand : Obligations.OnlyABrokenTreeStopsACommand := fun i s =>
  (exec_next_or_broken i s).imp_right fun ⟨e, b⟩ => ⟨e, b.dsym_or_lrd⟩

/-- Settles O60: the invariants leave no broken tree, and taking a turn off the schedule keeps them. -/
theorem noStepFaults : Obligations.NoStepFaults := by
  intro s hr hl
  cases hs : s.schedule with
  | nil =>
    rw [step_of_schedule_nil hs]
    exact .inl (exists_sequencerTurn_eq_next hr hl)
  | cons turn rest =>
    cases turn with
    | host a =>
      obtain ⟨released, asserted⟩ := (hostTurnIsOneAccess s).1 a rest hs
      cases hrst : s.rst with
      | false => exact .inl ⟨_, released hrst⟩
      | true => exact .inr ⟨rfl, ⟨a, rest, rfl⟩, asserted hrst⟩
    | sequencer =>
      rw [step_of_schedule_sequencer hs]
      exact .inl (exists_sequencerTurn_eq_next { hr with } hl)
    | resetInput asserted => exact .inl ⟨_, step_of_schedule_resetInput hs⟩

/-- Settles O47: each flag is a bit of the word that holds it. -/
theorem irqFollowsTheEnabledFlags : Obligations.IrqFollowsTheEnabledFlags := by
  intro s
  have hctrl := ctrlFields_ctrlWord s
  obtain ⟨hdone, herr, hcmdOvr, hinOvr⟩ := getLsbD_statusWord s
  rw [hctrl.ieDone, hctrl.ieErr, hctrl.ieOvr, hdone, herr, hcmdOvr, hinOvr, State.irq]

end

section
/-! SUPPORT, then the obligation O49. A turn of the reset input: its level while it is asserted and at the
end of its assertion, and the interrupt line after it (70_reset_and_hazards.md R240). -/

namespace Sys2Proof.Machine

theorem resetTurn_of_reset {s : State} {asserted : Bool} (h : asserted = true ∨ s.rst = true) :
    resetTurn asserted s = { s.resetAll with rst := asserted } :=
  if_pos ((Bool.or_eq_true ..).mpr h)

theorem step_of_reset {s : State} {asserted : Bool} {rest : List Turn}
    (hs : s.schedule = .resetInput asserted :: rest) (h : asserted = true ∨ s.rst = true) :
    step s = .next { ({ s with schedule := rest } : State).resetAll with rst := asserted } :=
  (step_of_schedule_resetInput hs).trans (congrArg Host.Outcome.next (resetTurn_of_reset h))

/-- The level of the reset input is none of the values of 10_state.md R61. -/
theorem ResetValues.withRst {t : State} (h : ResetValues t) (level : Bool) :
    ResetValues { t with rst := level } :=
  { h with }

/-- irq is 0 with the reset values because CTRL enables nothing (70_reset_and_hazards.md R240). -/
theorem ResetValues.irq_eq_false {t : State} (h : ResetValues t) : t.irq = false := by
  obtain ⟨hdone, herr, hovr, -⟩ := h.ctrl
  simp [State.irq, hdone, herr, hovr]

end Sys2Proof.Machine

open Sys2Proof.Machine

/-- Settles O49: the turn leaves the reset of all state but for the level of the input, and the schedule
keeps the turns after it. -/
theorem resetInputRestoresResetValues : Obligations.ResetInputRestoresResetValues := by
  intro s t asserted rest hs hlevel hstep
  obtain rfl := Host.Outcome.next.inj ((step_of_reset hs hlevel).symm.trans hstep)
  have hreset := (resetValues_resetAll { s with schedule := rest }).withRst asserted
  exact ⟨hreset, rfl, rfl, hreset.irq_eq_false, rfl, rfl⟩

end
